-- ==== Sys2Proof/Config.lean ====
section
/-! DEFINITION. Config: the implementation parameters of spec/00_scope.md R6. -/

namespace Sys2Proof.Config

/-- How far the operand width of an instance exceeds 32. OPEN in the spec (R6: a model argument with
`W >= 32`), so it has no body and nothing can be proved of it (log entry 1; safe). -/
opaque extraWidth : Nat

/-- `W`, the width in bits of scalar, coordinate and curve-parameter registers and of the host data
path (R6). The reference instance has `W = 256`; every statement of the package holds for every
`W >= 32`. -/
def W : Nat := 32 + extraWidth

/-- `NSC`, the number of scalar registers (R6). -/
abbrev NSC : Nat := 8

/-- `NPT`, the number of point registers (R6). -/
abbrev NPT : Nat := 8

/-- `2 ^ AW`, the number of host register numbers (R6, R39). -/
abbrev registerNumbers : Nat := 64

/-- The reset value of `RETRY_LIMIT` (R6, R32). -/
def retryLimitReset : BitVec 16 := 0x0020#16

end Sys2Proof.Config
end

