-- ==== Sys2Proof/Word.lean ====
section
/-! DEFINITION. Word: the machine's word types.

Registers of `W` bits hold unsigned integers on which all arithmetic is exact (spec/00_scope.md R7, R8),
so they are `Nat`; `Nat.fitsIn` is the bound a `W`-bit register keeps (log entry 1). -/

namespace Sys2Proof

/-- A command word (spec/30_encoding.md R90): 32 bits, bit 0 least significant. -/
abbrev CmdWord := BitVec 32

/-- A 16-bit register (`RETRY_LIMIT`, `RETRY_COUNT`: spec/00_scope.md R6). -/
abbrev Half := BitVec 16

/-- The number of a scalar register `SC0` to `SC7` (spec/10_state.md R22). -/
abbrev ScReg := Fin Config.NSC

/-- The number of a point register `PT0` to `PT7` (spec/10_state.md R31). -/
abbrev PtReg := Fin Config.NPT

/-- A host register number (spec/10_state.md R39). -/
abbrev RegNum := Fin Config.registerNumbers

/-- The value fits a register of `w` bits. -/
abbrev fitsIn (w v : Nat) : Prop := v < 2 ^ w

end Sys2Proof
end

