-- ==== Sys2Proof/Syntax.lean ====
section
/-! DEFINITION. Syntax: the ten commands of spec/30_encoding.md R93, operands in field order
(destinations first, as the assembler syntax of R99 writes them). The pseudo-command `PDBL pd, pa` is
`padd pd pa pa` (R100) and has no constructor. -/

namespace Sys2Proof

inductive Instr where
  /-- `MINV sd, sk, sm` (spec/40_field_inverse.md R111). -/
  | minv (sd sk sm : ScReg)
  /-- `PADD pd, pa, pb` (spec/41_point_add.md R121). -/
  | padd (pd pa pb : PtReg)
  /-- `PNEG pd, pa` (spec/41_point_add.md R126). -/
  | pneg (pd pa : PtReg)
  /-- `PMUL pd, sk, pa` (spec/42_scalar_mult.md R136). -/
  | pmul (pd : PtReg) (sk : ScReg) (pa : PtReg)
  /-- `EGKEY pd, sb` (spec/43_ec_elgamal.md R146). -/
  | egkey (pd : PtReg) (sb : ScReg)
  /-- `EGENC pc1, pc2, pm, sk, pb` (spec/43_ec_elgamal.md R148). -/
  | egenc (pc1 pc2 pm : PtReg) (sk : ScReg) (pb : PtReg)
  /-- `EGDEC pd, pc1, pc2, sb` (spec/43_ec_elgamal.md R151). -/
  | egdec (pd pc1 pc2 : PtReg) (sb : ScReg)
  /-- `DSAKG sd, pq` (spec/44_ecdsa.md R163). -/
  | dsakg (sd : ScReg) (pq : PtReg)
  /-- `DSASGN sr, ss, sz, sd` (spec/44_ecdsa.md R166). -/
  | dsasgn (sr ss sz sd : ScReg)
  /-- `DSAVFY sr, ss, sz, pq` (spec/44_ecdsa.md R169). -/
  | dsavfy (sr ss sz : ScReg) (pq : PtReg)
  deriving DecidableEq, Repr

end Sys2Proof
end

