-- ==== Sys2Proof/WellFormed.lean ====
section
/-! DEFINITION. WellFormed: which commands a word can select. -/

namespace Sys2Proof

/-- Two destinations of one command are different registers of their file (spec/30_encoding.md R97). -/
def Instr.wellFormed : Instr → Bool
  | .minv _ _ _ => true
  | .padd _ _ _ => true
  | .pneg _ _ => true
  | .pmul _ _ _ => true
  | .egkey _ _ => true
  | .egenc pc1 pc2 _ _ _ => pc1 != pc2
  | .egdec _ _ _ _ => true
  | .dsakg _ _ => true
  | .dsasgn sr ss _ _ => sr != ss
  | .dsavfy _ _ _ _ => true

end Sys2Proof
end

