-- ==== Sys2Proof/Decode.lean ====
section
/-! DEFINITION. Decode: from command words to instructions and back (spec/30_encoding.md R90 to R97).

Decoding is total on all 2^32 words: a word selects exactly one command or is rejected by name. -/

namespace Sys2Proof

/-- Why a word selects no command (R95). Each reason raises the one fault `Illegal` (R91). -/
inductive DecodeError where
  /-- `OP` is one of the 246 unassigned values. -/
  | unassignedOpcode
  /-- `OP` is assigned and a reserved bit or an unused field is not 0. -/
  | nonzeroReserved
  /-- `EGENC` or `DSASGN` with one register as both destinations (R97). -/
  | duplicateDestination
  deriving DecidableEq, Repr

/-- The mnemonics of R93. -/
inductive Mnemonic where
  | minv | padd | pneg | pmul | egkey | egenc | egdec | dsakg | dsasgn | dsavfy
  deriving DecidableEq, Repr

/-- One row of the match-and-mask table (R94). -/
structure OpcodeRow where
  mnemonic : Mnemonic
  value : CmdWord
  mask : CmdWord
  deriving DecidableEq, Repr

/-- The table of R94. -/
def opcodeRows : List OpcodeRow :=
  [ ⟨.minv,   0x01000000, 0xFF007FFF⟩,
    ⟨.padd,   0x10000000, 0xFF007FFF⟩,
    ⟨.pneg,   0x11000000, 0xFF03FFFF⟩,
    ⟨.pmul,   0x20000000, 0xFF007FFF⟩,
    ⟨.egkey,  0x30000000, 0xFF03FFFF⟩,
    ⟨.egenc,  0x31000000, 0xFF0001FF⟩,
    ⟨.egdec,  0x32000000, 0xFF000FFF⟩,
    ⟨.dsakg,  0x40000000, 0xFF03FFFF⟩,
    ⟨.dsasgn, 0x41000000, 0xFF000FFF⟩,
    ⟨.dsavfy, 0x42000000, 0xFF000FFF⟩ ]

/-- A word selects a row exactly when `(c AND mask) = match` (R94). -/
def OpcodeRow.selects (row : OpcodeRow) (c : CmdWord) : Bool :=
  c &&& row.mask == row.value

/-- `OP`, bits 31:24 (R92). -/
def opcodeField (c : CmdWord) : Nat := c.toNat / 2 ^ 24

/-- The three-bit register select whose lowest bit is bit `lo` (R92). -/
def selectField (lo : Nat) (c : CmdWord) : Fin 8 := Fin.ofNat 8 (c.toNat / 2 ^ lo)

/-- Register selects `F0` to `F4` (R92). -/
def f0 (c : CmdWord) : Fin 8 := selectField 21 c
def f1 (c : CmdWord) : Fin 8 := selectField 18 c
def f2 (c : CmdWord) : Fin 8 := selectField 15 c
def f3 (c : CmdWord) : Fin 8 := selectField 12 c
def f4 (c : CmdWord) : Fin 8 := selectField 9 c

/-- The roles of the register selects (R93). -/
def operandsOf (m : Mnemonic) (c : CmdWord) : Instr :=
  match m with
  | .minv => .minv (f0 c) (f1 c) (f2 c)
  | .padd => .padd (f0 c) (f1 c) (f2 c)
  | .pneg => .pneg (f0 c) (f1 c)
  | .pmul => .pmul (f0 c) (f1 c) (f2 c)
  | .egkey => .egkey (f0 c) (f1 c)
  | .egenc => .egenc (f0 c) (f1 c) (f2 c) (f3 c) (f4 c)
  | .egdec => .egdec (f0 c) (f1 c) (f2 c) (f3 c)
  | .dsakg => .dsakg (f0 c) (f1 c)
  | .dsasgn => .dsasgn (f0 c) (f1 c) (f2 c) (f3 c)
  | .dsavfy => .dsavfy (f0 c) (f1 c) (f2 c) (f3 c)

/-- The reason of R95 for a word that no row of R94 selects. -/
def unselectedReason (c : CmdWord) : DecodeError :=
  if opcodeRows.any (fun row => row.value.toNat / 2 ^ 24 == opcodeField c) then .nonzeroReserved
  else .unassignedOpcode

/-- Decode (R91): the row, then the check of two destinations, then the register numbers. -/
def decode (c : CmdWord) : Except DecodeError Instr :=
  match opcodeRows.find? (fun row => row.selects c) with
  | none => .error (unselectedReason c)
  | some row =>
    if (operandsOf row.mnemonic c).wellFormed then .ok (operandsOf row.mnemonic c)
    else .error .duplicateDestination

/-- The word value of R92. -/
def packWord (op : Nat) (r0 r1 r2 r3 r4 : Fin 8) : CmdWord :=
  BitVec.ofNat 32 (op * 2 ^ 24 + r0.val * 2 ^ 21 + r1.val * 2 ^ 18 + r2.val * 2 ^ 15
    + r3.val * 2 ^ 12 + r4.val * 2 ^ 9)

/-- The word of a command (R92, R93): unused fields and `Z` are 0. -/
def encode : Instr → CmdWord
  | .minv sd sk sm => packWord 0x01 sd sk sm 0 0
  | .padd pd pa pb => packWord 0x10 pd pa pb 0 0
  | .pneg pd pa => packWord 0x11 pd pa 0 0 0
  | .pmul pd sk pa => packWord 0x20 pd sk pa 0 0
  | .egkey pd sb => packWord 0x30 pd sb 0 0 0
  | .egenc pc1 pc2 pm sk pb => packWord 0x31 pc1 pc2 pm sk pb
  | .egdec pd pc1 pc2 sb => packWord 0x32 pd pc1 pc2 sb 0
  | .dsakg sd pq => packWord 0x40 sd pq 0 0 0
  | .dsasgn sr ss sz sd => packWord 0x41 sr ss sz sd 0
  | .dsavfy sr ss sz pq => packWord 0x42 sr ss sz pq 0

/-- The command word that `nbits` bits of a table word present on the host port, the bits above them
0 (R90: bits above 31 are ignored). -/
def tableWord (nbits w : Nat) : CmdWord := BitVec.ofNat 32 (w % 2 ^ nbits)

/-- The instruction the decoder reads from a word numbered as spec/opcode_table.json numbers it. -/
def decodeTableWord (nbits w : Nat) : Option Instr := (decode (tableWord nbits w)).toOption

end Sys2Proof
end

