-- ==== Sys2Proof/Machine/State.lean ====
section
/-! DEFINITION. State: everything the spec gives the machine, as plain data (spec/10_state.md R21, R40),
and what the outside will do next (log entries 2, 3). -/

namespace Sys2Proof.Machine

/-- The causes of a command fault with the names of spec/60_exceptions.md R181. Taking one is a NEXT
state (R185), never a stop of the machine. -/
inductive Cause where
  | arith | retry | illegal | emptyRange
  deriving DecidableEq, Repr

/-- A point (spec/00_scope.md R12): the identity or a pair of coordinates. -/
inductive Point where
  | identity
  | affine (x y : Nat)
  deriving DecidableEq, Repr

/-- A point register (spec/10_state.md R31, R38): `INF`, `X`, `Y`. -/
structure PointReg where
  inf : Bool
  x : Nat
  y : Nat
  deriving DecidableEq, Repr

/-- The six fields of `STATUS` (spec/10_state.md R26); its bits 31:6 read as 0 and hold nothing. -/
structure Status where
  busy : Bool
  done : Bool
  err : Bool
  herr : Bool
  v : Bool
  rnge : Bool
  deriving DecidableEq, Repr

/-- The two fields of `CTRL` (spec/10_state.md R30). -/
structure Ctrl where
  die : Bool
  eie : Bool
  deriving DecidableEq, Repr

/-- The registers that host register numbers name (spec/10_state.md R39). -/
inductive HostReg where
  | cmd | status | errcode | errcmd | ctrl | retryLimit | retryCount
  | curveP | curveA | curveB | curveN | gX | gY | gInf
  | sc (i : ScReg)
  | ptX (i : PtReg)
  | ptY (i : PtReg)
  | ptInf (i : PtReg)
  deriving DecidableEq, Repr

/-- What the outside of the block does in one step (spec/20_memory.md R81). -/
inductive Input where
  /-- The host presents `HostRead(r)` (R62). -/
  | read (r : RegNum)
  /-- The host presents `HostWrite(r, v)` (R63). -/
  | write (r : RegNum) (v : Nat)
  /-- The host presents nothing; the sequencer moves. -/
  | quiet
  /-- The entropy source offers one more answer (R75). -/
  | answer (c : Nat)
  /-- `rst_n` takes this level (spec/70_reset_and_hazards.md R210). -/
  | rstN (level : Bool)
  deriving DecidableEq, Repr

structure State where
  /-- `SC0` to `SC7` (spec/10_state.md R22). -/
  sc : Vector Nat Config.NSC
  /-- `PT0` to `PT7` (R31). -/
  pt : Vector PointReg Config.NPT
  /-- `CURVE_P` (R34). -/
  curveP : Nat
  /-- `CURVE_A` (R35). -/
  curveA : Nat
  /-- `CURVE_B` (R36); no command reads it. -/
  curveB : Nat
  /-- `CURVE_N` (R37). -/
  curveN : Nat
  /-- `G_INF`, `G_X`, `G_Y` (R38). -/
  g : PointReg
  /-- `CMD` (R25). -/
  cmd : CmdWord
  /-- `STATUS` (R26). -/
  status : Status
  /-- `ERRCODE.CAUSE` (R28). -/
  errcode : BitVec 4
  /-- `ERRCMD` (R29). -/
  errcmd : CmdWord
  /-- `CTRL` (R30). -/
  ctrl : Ctrl
  /-- `RETRY_LIMIT` (R32). -/
  retryLimit : Half
  /-- `RETRY_COUNT` (R33). -/
  retryCount : Half
  /-- The attempt counter `t` of the running draw loop (R40); 0 when no draw loop runs. -/
  attempts : Nat
  /-- The outstanding draw request: `some rnd_max` while `rnd_req = 1` (spec/20_memory.md R75, R81). -/
  rndReq : Option Nat
  /-- The input `rst_n` (R81). -/
  rstN : Bool
  /-- `h_rdata` of the last performed read (R81; log entry 6). -/
  hRdata : Nat
  /-- The MODEL's own: what the outside does in the next steps, oldest first (log entry 2). -/
  inputs : List Input
  /-- The MODEL's own: the answers the entropy source has ready, oldest first (log entry 3). -/
  entropy : List Nat
  deriving DecidableEq, Repr

/-- Reasons for the machine to stop. There are none: every command is total over all register
contents (spec/00_scope.md R5) and a command fault is a next state (spec/60_exceptions.md R185). Nobody
raises a member of this type (log entry 13; safe). -/
inductive Fault where
  deriving DecidableEq, Repr

inductive Refusal where
  /-- Raised by an arm of `exec` whose instruction has no meaning yet, by its mnemonic (safe). No arm
  raises it in this model. -/
  | notModelled (mnemonic : String)
  deriving DecidableEq, Repr

/-- The answer of one step. -/
abbrev Outcome := Host.Outcome State Fault Refusal

/-- A register holding the identity in canonical form (spec/10_state.md R31, R42). -/
def PointReg.identity : PointReg := ⟨true, 0, 0⟩

/-- `STATUS` with every field 0 (R42). -/
def Status.zero : Status := ⟨false, false, false, false, false, false⟩

/-- The machine right after reset (spec/10_state.md R42): idle, `rst_n` back at 1, nothing presented
from outside. -/
def State.reset : State where
  sc := Vector.replicate 8 0
  pt := Vector.replicate 8 PointReg.identity
  curveP := 0
  curveA := 0
  curveB := 0
  curveN := 0
  g := PointReg.identity
  cmd := 0#32
  status := Status.zero
  errcode := 0#4
  errcmd := 0#32
  ctrl := ⟨false, false⟩
  retryLimit := Config.retryLimitReset
  retryCount := 0#16
  attempts := 0
  rndReq := none
  rstN := true
  hRdata := 0
  inputs := []
  entropy := []

end Sys2Proof.Machine
end

