-- ==== Sys2Proof/Machine/Flags.lean ====
section
/-! DEFINITION. Flags: `STATUS`, `CTRL` and the interrupt line (spec/10_state.md R26, R27, R30;
spec/60_exceptions.md R190). The machine has no arithmetic condition codes (R27). -/

namespace Sys2Proof.Machine

/-- The codes of spec/60_exceptions.md R181. -/
def Cause.code : Cause → BitVec 4
  | .arith => 1
  | .retry => 2
  | .illegal => 3
  | .emptyRange => 4

/-- The value `STATUS` reads as (R26). -/
def Status.value (st : Status) : Nat :=
  st.busy.toNat + 2 * st.done.toNat + 4 * st.err.toNat + 8 * st.herr.toNat
    + 16 * st.v.toNat + 32 * st.rnge.toNat

/-- The value `CTRL` reads as (R30). -/
def Ctrl.value (c : Ctrl) : Nat := c.die.toNat + 2 * c.eie.toNat

/-- A host write to `CTRL`: bits 1:0, the others ignored (R30). -/
def Ctrl.ofValue (v : Nat) : Ctrl := ⟨v.testBit 0, v.testBit 1⟩

/-- A host write to `STATUS`: W1C on bits 1, 2 and 3, ignored on every other bit (R26). -/
def Status.writeOneToClear (v : Nat) (st : Status) : Status :=
  { st with
    done := st.done && !v.testBit 1
    err := st.err && !v.testBit 2
    herr := st.herr && !v.testBit 3 }

/-- Accept: `DONE <- 0`, `BUSY <- 1` (R25). -/
def Status.accepted (st : Status) : Status := { st with done := false, busy := true }

/-- Commit without fault: `DONE <- 1`, `BUSY <- 0` (spec/60_exceptions.md R193). -/
def Status.committed (st : Status) : Status := { st with done := true, busy := false }

/-- Commit with a fault: `ERR <- 1`, `DONE <- 1`, `BUSY <- 0` (spec/60_exceptions.md R185). -/
def Status.faulted (st : Status) : Status := { st with err := true, done := true, busy := false }

/-- A dropped host write: `HERR <- 1` (spec/20_memory.md R65, R66). -/
def Status.hostError (st : Status) : Status := { st with herr := true }

/-- The result flags, written by `DSAVFY` alone (R27). -/
def Status.verdict (v rnge : Bool) (st : Status) : Status := { st with v := v, rnge := rnge }

/-- The interrupt output, a level (spec/60_exceptions.md R190). -/
def State.irq (s : State) : Bool :=
  (s.status.done && s.ctrl.die) || (s.status.err && s.ctrl.eie)

/-- The output `h_ready`: a presented transaction is performed in its own step, and none while
`rst_n = 0` (spec/20_memory.md R61, R81; spec/70_reset_and_hazards.md R210; log entry 15). -/
def State.hReady (s : State) : Bool := s.rstN

end Sys2Proof.Machine
end

