-- ==== Sys2Proof/Machine/Operands.lean ====
section
/-! DEFINITION. Operands: reading and writing scalar and point registers, and the implicit
curve-parameter operands (spec/00_scope.md R11, R12; spec/10_state.md R22, R31; spec/30_encoding.md R92, R93).
Register numbers are the only operand form there is (spec/30_encoding.md R98). -/

namespace Sys2Proof.Machine

/-- A point register read as a `Point`: `INF = 1` is the identity whatever `X` and `Y` hold (R12, R31). -/
def PointReg.toPoint (r : PointReg) : Point :=
  if r.inf then .identity else .affine r.x r.y

/-- A point as a register holds it after a command wrote it: the identity is `INF = 1, X = 0, Y = 0`
(R12, R31). -/
def Point.toReg : Point → PointReg
  | .identity => PointReg.identity
  | .affine x y => ⟨false, x, y⟩

/-- `SC[i]` (R11). -/
def State.scalar (s : State) (i : ScReg) : Nat := s.sc[i.val]

/-- `SC[i] <- v` (R11); none of the scalar registers is hardwired (R22). -/
def State.setScalar (i : ScReg) (v : Nat) (s : State) : State := { s with sc := s.sc.set i.val v }

/-- The point register `PTi` as its three parts (R31). -/
def State.pointReg (s : State) (i : PtReg) : PointReg := s.pt[i.val]

/-- The three parts of `PTi` written together (R31). -/
def State.setPointReg (i : PtReg) (r : PointReg) (s : State) : State :=
  { s with pt := s.pt.set i.val r }

/-- `PT[i]` (R11). -/
def State.point (s : State) (i : PtReg) : Point := (s.pointReg i).toPoint

/-- `PT[i] <- P` (R11). -/
def State.setPoint (i : PtReg) (P : Point) (s : State) : State := s.setPointReg i P.toReg

/-- The base point `G` read from `G_INF, G_X, G_Y` (R11, R38). -/
def State.basePoint (s : State) : Point := s.g.toPoint

end Sys2Proof.Machine
end

