-- ==== Sys2Proof/Machine/Ops.lean ====
section
/-! DEFINITION. Ops: how a command ends (commit, fault entry), the fault return, the draw loop of
`DSAKG` and `DSASGN`, and reset. -/

namespace Sys2Proof.Machine

/-- What a command's pure function returns (spec/00_scope.md R14): a value or a fault cause; a fault of a
called function is the caller's at once. -/
abbrev Result (α : Type) := Except Cause α

/-- The hidden state of a running command, discarded at its end (spec/10_state.md R40; spec/60_exceptions.md
R185). -/
def State.dropHidden (s : State) : State := { s with attempts := 0, rndReq := none }

/-- Accept of the command word `c` (spec/10_state.md R25). -/
def State.accept (c : CmdWord) (s : State) : State :=
  { s.dropHidden with cmd := c, status := s.status.accepted }

/-- Commit without fault, once the destinations are written (spec/60_exceptions.md R193). -/
def State.commit (s : State) : State := { s.dropHidden with status := s.status.committed }

/-- TAKING A FAULT (spec/60_exceptions.md R185): cause and command word are recorded, `ERR` and `DONE` are
set, `BUSY` is cleared, nothing else is written. Control goes nowhere: there is no vector. -/
def State.takeFault (c : Cause) (s : State) : State :=
  { s.dropHidden with status := s.status.faulted, errcode := c.code, errcmd := s.cmd }

/-- FAULT RETURN (spec/60_exceptions.md R188) is the host's W1C write to `STATUS`; it restores nothing. The
same write clears `DONE` and `HERR` where their bits are 1 (spec/10_state.md R26). -/
def State.acknowledge (v : Nat) (s : State) : State :=
  { s with status := s.status.writeOneToClear v }

/-- A command ends as its function's result says: destinations written and committed together, or the
fault taken with none written (spec/30_encoding.md R96; spec/60_exceptions.md R185, R193). -/
def finish {α : Type} (r : Result α) (write : α → State → State) (s : State) : Outcome :=
  match r with
  | .ok v => .next (write v s).commit
  | .error c => .next (s.takeFault c)

/-- `RETRY_COUNT <- min(t, 0xFFFF)` (spec/10_state.md R33; spec/44_ecdsa.md R163). -/
def State.publishAttempts (s : State) : State :=
  { s with retryCount := BitVec.ofNat 16 (min s.attempts 0xFFFF) }

/-- `t <- t + 1` and the request of `RndDraw(bound)` (spec/44_ecdsa.md R163; spec/20_memory.md R75). -/
def State.requestDraw (bound : Nat) (s : State) : State :=
  { s with attempts := s.attempts + 1, rndReq := some bound }

/-- The request is answered with the oldest answer on offer (spec/20_memory.md R75). -/
def State.takeAnswer (rest : List Nat) (s : State) : State :=
  { s with rndReq := none, entropy := rest }

/-- With a draw requested: wait for an answer, or take it and make the attempt. `attempt c` answers
`none` where the attempt is rejected; the loop then goes on, `BUSY` staying 1. -/
def answerDraw {α : Type} (attempt : Nat → Result (Option α)) (write : α → State → State)
    (s : State) : Outcome :=
  match s.entropy with
  | [] => .next s
  | c :: rest =>
    match attempt c with
    | .ok none => .next (s.takeAnswer rest)
    | .ok (some v) => .next (write v (s.takeAnswer rest).publishAttempts).commit
    | .error e => .next ((s.takeAnswer rest).publishAttempts.takeFault e)

/-- One turn of the draw loop of `DSAKG` and `DSASGN` (spec/44_ecdsa.md R163, R166): the empty range, the
cap, the request, the answer, in this order (spec/60_exceptions.md R192). A request that an earlier turn
left unanswered goes on where it waits (log entry 4). -/
def drawLoop {α : Type} (attempt : Nat → Result (Option α)) (write : α → State → State)
    (s : State) : Outcome :=
  if s.curveN < 2 then .next ({ s with retryCount := 0#16 }.takeFault .emptyRange)
  else
    match s.rndReq with
    | some _ => answerDraw attempt write s
    | none =>
      if s.retryLimit ≠ 0#16 ∧ s.attempts = s.retryLimit.toNat then
        .next (s.publishAttempts.takeFault .retry)
      else answerDraw attempt write (s.requestDraw (s.curveN - 1))

/-- `rst_n` falls to 0 (spec/10_state.md R42; spec/70_reset_and_hazards.md R210): every piece of state takes its
reset value and a running command is abandoned. What the outside will do stays (log entry 9). -/
def State.assertReset (s : State) : State :=
  { State.reset with rstN := false, inputs := s.inputs, entropy := s.entropy }

/-- `rst_n` takes a level (R210). -/
def State.setReset (level : Bool) (s : State) : State :=
  if level then { s with rstN := true } else s.assertReset

/-- The entropy source offers one more answer (spec/20_memory.md R75). -/
def State.offerAnswer (c : Nat) (s : State) : State := { s with entropy := s.entropy ++ [c] }

end Sys2Proof.Machine
end

