-- ==== Sys2Proof/Machine/Field.lean ====
section
/-! DEFINITION. Field: the unit `MIE` (spec/40_field_inverse.md) and its command `MINV`, and the reduction
`mod` of spec/00_scope.md R9. -/

namespace Sys2Proof.Machine

/-- `mod(v, m)` (spec/00_scope.md R9): the non-negative residue of an exact integer, a fault at `m = 0`. -/
def reduce (v : Int) (m : Nat) : Result Nat :=
  if m = 0 then .error .arith else .ok (v % (m : Int)).toNat

/-- The extended Euclidean loop of R113 on `(r0, r1)` and `(t0, t1)`; it answers the last `r0` and `t0`.
The fuel bounds the loop, which ends when `r1 = 0`; fuel above `r1` is never used up (log entry 12). -/
def euclid : Nat → Nat → Nat → Int → Int → Nat × Int
  | 0, r0, _, t0, _ => (r0, t0)
  | fuel + 1, r0, r1, t0, t1 =>
    if r1 = 0 then (r0, t0)
    else euclid fuel r1 (r0 % r1) t1 (t0 - (r0 / r1 : Nat) * t1)

/-- `Inv(k, m)` (R112): the unique `v` in `[0, m)` with `k·v ≡ 1 (mod m)`; a fault where `m = 0` or
`gcd(k, m) != 1`. Computed by the reference method of R113. -/
def inv (k : Int) (m : Nat) : Result Nat :=
  if m = 0 then .error .arith
  else
    match euclid (m + 1) m (k % (m : Int)).toNat 0 1 with
    | (1, t) => .ok (t % (m : Int)).toNat
    | _ => .error .arith

/-- `MINV sd, sk, sm` (R111). -/
def execMinv (sd sk sm : ScReg) (s : State) : Outcome :=
  finish (inv (s.scalar sk) (s.scalar sm)) (State.setScalar sd) s

end Sys2Proof.Machine
end

