-- ==== Sys2Proof/Machine/Curve.lean ====
section
/-! DEFINITION. Curve: the unit `APA` (spec/41_point_add.md), commands `PADD` and `PNEG`. All intermediate
arithmetic is exact over the integers (spec/00_scope.md R8). -/

namespace Sys2Proof.Machine

/-- The doubling slope (R122). -/
def doublingSlope (x y a p : Nat) : Result Nat := do
  let i ← inv (2 * y) p
  reduce ((3 * x * x + a) * i) p

/-- The chord slope (R123). -/
def chordSlope (xP yP xQ yQ p : Nat) : Result Nat := do
  let i ← inv ((xQ : Int) - xP) p
  reduce (((yQ : Int) - yP) * i) p

/-- Step 4 of `Add` (R121). -/
def chordPoint (l xP yP xQ p : Nat) : Result Point := do
  let xR ← reduce ((l : Int) * l - xP - xQ) p
  let yR ← reduce ((l : Int) * ((xP : Int) - xR) - yP) p
  return .affine xR yR

/-- `Add(P, Q, a, p)` (R121), its tests in priority order and on the register values as they are. -/
def add (P Q : Point) (a p : Nat) : Result Point :=
  match P, Q with
  | .identity, Q => .ok Q
  | P, .identity => .ok P
  | .affine xP yP, .affine xQ yQ =>
    if xP = xQ ∧ yP = yQ then
      if yP = 0 then .ok .identity
      else do chordPoint (← doublingSlope xP yP a p) xP yP xQ p
    else if xP = xQ then .ok .identity
    else do chordPoint (← chordSlope xP yP xQ yQ p) xP yP xQ p

/-- `Neg(P, p)` (R126): `x` is copied unreduced. -/
def neg (P : Point) (p : Nat) : Result Point :=
  match P with
  | .identity => .ok .identity
  | .affine x y => do return .affine x (← reduce (-(y : Int)) p)

/-- `PADD pd, pa, pb` (R121). -/
def execPadd (pd pa pb : PtReg) (s : State) : Outcome :=
  finish (add (s.point pa) (s.point pb) s.curveA s.curveP) (State.setPoint pd) s

/-- `PNEG pd, pa` (R126). -/
def execPneg (pd pa : PtReg) (s : State) : Outcome :=
  finish (neg (s.point pa) s.curveP) (State.setPoint pd) s

end Sys2Proof.Machine
end

