-- ==== Sys2Proof/Machine/ScalarMul.lean ====
section
/-! DEFINITION. ScalarMul: the unit `SM` (spec/42_scalar_mult.md), command `PMUL`. -/

namespace Sys2Proof.Machine

/-- The double-and-add loop of R136 on accumulator `R`, addend `A` and remaining scalar `K`: accumulate
where the low bit is set, then double (also in the last iteration), then shift. The fuel bounds the
iterations; the loop ends when `K = 0`. -/
def mulLoop (a p : Nat) : Nat → Point → Point → Nat → Result Point
  | 0, R, _, _ => .ok R
  | fuel + 1, R, A, K =>
    if K = 0 then .ok R
    else do
      let R' ← if K % 2 = 1 then add R A a p else .ok R
      let A' ← add A A a p
      mulLoop a p fuel R' A' (K / 2)

/-- `Mul(k, P, a, p)` (R136): exactly `floor(log2 k) + 1` iterations (R137 (b)). -/
def mul (k : Nat) (P : Point) (a p : Nat) : Result Point :=
  if k = 0 ∨ P = .identity then .ok .identity
  else mulLoop a p (Nat.log2 k + 1) .identity P k

/-- `PMUL pd, sk, pa` (R136). -/
def execPmul (pd : PtReg) (sk : ScReg) (pa : PtReg) (s : State) : Outcome :=
  finish (mul (s.scalar sk) (s.point pa) s.curveA s.curveP) (State.setPoint pd) s

end Sys2Proof.Machine
end

