-- ==== Sys2Proof/Machine/Ecdsa.lean ====
section
/-! DEFINITION. Ecdsa: the unit `DSU` (spec/44_ecdsa.md), commands `DSAKG`, `DSASGN`, `DSAVFY`. -/

namespace Sys2Proof.Machine

/-- The answer of the entropy port lies in `[1, n - 1]` (R163, R165). -/
def inDrawRange (c n : Nat) : Bool := 1 ≤ c && c ≤ n - 1

/-- One attempt of `DSAKG` (R163): the private key and the public key, none where the answer is out of
range. -/
def keyAttempt (n : Nat) (G : Point) (a p : Nat) (c : Nat) : Result (Option (Nat × Point)) :=
  if inDrawRange c n then do return some (c, ← mul c G a p) else .ok none

/-- `SignAttempt(c, z, d, n, G, a, p)` (R165): `(r, s)`, none where the attempt is rejected. -/
def signAttempt (z d n : Nat) (G : Point) (a p : Nat) (c : Nat) : Result (Option (Nat × Nat)) :=
  if inDrawRange c n then do
    match ← mul c G a p with
    | .identity => .ok none
    | .affine xK _ =>
      let r ← reduce xK n
      if r = 0 then .ok none
      else
        let i ← inv c n
        let s ← reduce (i * (z + r * d)) n
        if s = 0 then .ok none else .ok (some (r, s))
  else .ok none

/-- What a verification that does not fault answers (R168). -/
inductive Verdict where
  | pass | failRange | fail
  deriving DecidableEq, Repr

/-- `r` or `s` lies in `[1, n - 1]`, compared as integers (R168: `n - 1` may be -1). -/
def inSignatureRange (v n : Nat) : Bool := 1 ≤ v && v + 1 ≤ n

/-- `Verify(r, s, z, Q, n, G, a, p)` (R168). -/
def verify (r s z : Nat) (Q : Point) (n : Nat) (G : Point) (a p : Nat) : Result Verdict :=
  if inSignatureRange r n && inSignatureRange s n then do
    let w ← inv s n
    let u1 ← reduce (z * w) n
    let u2 ← reduce (r * w) n
    let X1 ← mul u1 G a p
    let X2 ← mul u2 Q a p
    match ← add X1 X2 a p with
    | .identity => .ok .fail
    | .affine xX _ =>
      let v ← reduce xX n
      if v = r then .ok .pass else .ok .fail
  else .ok .failRange

/-- `V` and `RNGE` as R169 writes them at commit. -/
def writeVerdict (v : Verdict) (s : State) : State :=
  { s with status := s.status.verdict (v == .pass) (v == .failRange) }

/-- Both destinations of `DSAKG`, at commit (R163). -/
def writeKeyPair (sd : ScReg) (pq : PtReg) (k : Nat × Point) (s : State) : State :=
  (s.setScalar sd k.1).setPoint pq k.2

/-- Both destinations of `DSASGN`, at commit (R166). -/
def writeSignature (sr ss : ScReg) (sig : Nat × Nat) (s : State) : State :=
  (s.setScalar sr sig.1).setScalar ss sig.2

/-- `DSAKG sd, pq` (R163): one turn of its draw loop. -/
def execDsakg (sd : ScReg) (pq : PtReg) (s : State) : Outcome :=
  drawLoop (keyAttempt s.curveN s.basePoint s.curveA s.curveP) (writeKeyPair sd pq) s

/-- `DSASGN sr, ss, sz, sd` (R166): one turn of its draw loop; one register as both destinations is
`Illegal` (spec/30_encoding.md R97; log entry 8). -/
def execDsasgn (sr ss sz sd : ScReg) (s : State) : Outcome :=
  if sr = ss then .next (s.takeFault .illegal)
  else
    drawLoop (signAttempt (s.scalar sz) (s.scalar sd) s.curveN s.basePoint s.curveA s.curveP)
      (writeSignature sr ss) s

/-- `DSAVFY sr, ss, sz, pq` (R169): the result goes to `V` and `RNGE`; a fault clears both. -/
def execDsavfy (sr ss sz : ScReg) (pq : PtReg) (s : State) : Outcome :=
  match verify (s.scalar sr) (s.scalar ss) (s.scalar sz) (s.point pq) s.curveN s.basePoint
      s.curveA s.curveP with
  | .ok v => .next (writeVerdict v s).commit
  | .error c => .next ((writeVerdict .fail s).takeFault c)

end Sys2Proof.Machine
end

