-- ==== Sys2Proof/Machine/ElGamal.lean ====
section
/-! DEFINITION. ElGamal: the unit `EGU` (spec/43_ec_elgamal.md), commands `EGKEY`, `EGENC`, `EGDEC`. The
sub-operations run in the order written (R153). -/

namespace Sys2Proof.Machine

/-- The body of `EGENC` (R148): `(C1, C2)`. -/
def encrypt (Pm : Point) (k : Nat) (a p : Nat) (G Pb : Point) : Result (Point × Point) := do
  let S ← mul k Pb a p
  let C1 ← mul k G a p
  let C2 ← add Pm S a p
  return (C1, C2)

/-- The body of `EGDEC` (R151). -/
def decrypt (C1 C2 : Point) (b a p : Nat) : Result Point := do
  let S ← mul b C1 a p
  let N ← neg S p
  add C2 N a p

/-- Both destinations of `EGENC`, at commit (R148). -/
def writeCiphertext (pc1 pc2 : PtReg) (C : Point × Point) (s : State) : State :=
  (s.setPoint pc1 C.1).setPoint pc2 C.2

/-- `EGKEY pd, sb` (R146). -/
def execEgkey (pd : PtReg) (sb : ScReg) (s : State) : Outcome :=
  finish (mul (s.scalar sb) s.basePoint s.curveA s.curveP) (State.setPoint pd) s

/-- `EGENC pc1, pc2, pm, sk, pb` (R148); one register as both destinations is `Illegal`
(spec/30_encoding.md R97; log entry 8). -/
def execEgenc (pc1 pc2 pm : PtReg) (sk : ScReg) (pb : PtReg) (s : State) : Outcome :=
  if pc1 = pc2 then .next (s.takeFault .illegal)
  else
    finish (encrypt (s.point pm) (s.scalar sk) s.curveA s.curveP s.basePoint (s.point pb))
      (writeCiphertext pc1 pc2) s

/-- `EGDEC pd, pc1, pc2, sb` (R151). -/
def execEgdec (pd pc1 pc2 : PtReg) (sb : ScReg) (s : State) : Outcome :=
  finish (decrypt (s.point pc1) (s.point pc2) (s.scalar sb) s.curveA s.curveP) (State.setPoint pd) s

end Sys2Proof.Machine
end

