-- ==== Sys2Proof/Machine/Dispatch.lean ====
section
/-! DEFINITION. Dispatch: one arm per command. -/

namespace Sys2Proof.Machine

def exec (i : Instr) (s : State) : Host.Outcome State Fault Refusal :=
  match i with
  | .minv sd sk sm => Sys2Proof.Machine.execMinv sd sk sm s
  | .padd pd pa pb => Sys2Proof.Machine.execPadd pd pa pb s
  | .pneg pd pa => Sys2Proof.Machine.execPneg pd pa s
  | .pmul pd sk pa => Sys2Proof.Machine.execPmul pd sk pa s
  | .egkey pd sb => Sys2Proof.Machine.execEgkey pd sb s
  | .egenc pc1 pc2 pm sk pb => Sys2Proof.Machine.execEgenc pc1 pc2 pm sk pb s
  | .egdec pd pc1 pc2 sb => Sys2Proof.Machine.execEgdec pd pc1 pc2 sb s
  | .dsakg sd pq => Sys2Proof.Machine.execDsakg sd pq s
  | .dsasgn sr ss sz sd => Sys2Proof.Machine.execDsasgn sr ss sz sd s
  | .dsavfy sr ss sz pq => Sys2Proof.Machine.execDsavfy sr ss sz pq s

end Sys2Proof.Machine
end

