-- ==== Sys2Proof/Machine/HostPort.lean ====
section
/-! DEFINITION. HostPort: the register-number map and the two host transactions (spec/10_state.md R39;
spec/20_memory.md R60 to R66). -/

namespace Sys2Proof.Machine

/-- The register a number names, none where it is unmapped (spec/10_state.md R39). -/
def regMap (r : RegNum) : Option HostReg :=
  let n := r.val
  if n < 0x10 then
    match n with
    | 0x00 => some .cmd
    | 0x01 => some .status
    | 0x02 => some .errcode
    | 0x03 => some .errcmd
    | 0x04 => some .ctrl
    | 0x05 => some .retryLimit
    | 0x06 => some .retryCount
    | 0x08 => some .curveP
    | 0x09 => some .curveA
    | 0x0A => some .curveB
    | 0x0B => some .curveN
    | 0x0C => some .gX
    | 0x0D => some .gY
    | 0x0E => some .gInf
    | _ => none
  else if n < 0x18 then some (.sc (Fin.ofNat 8 (n - 0x10)))
  else if n < 0x20 then none
  else
    let i : PtReg := Fin.ofNat 8 ((n - 0x20) / 4)
    match (n - 0x20) % 4 with
    | 0 => some (.ptX i)
    | 1 => some (.ptY i)
    | 2 => some (.ptInf i)
    | _ => none

/-- The value a register reads as, zero-extended (R62, R64). -/
def State.readReg (s : State) : HostReg → Nat
  | .cmd => s.cmd.toNat
  | .status => s.status.value
  | .errcode => s.errcode.toNat
  | .errcmd => s.errcmd.toNat
  | .ctrl => s.ctrl.value
  | .retryLimit => s.retryLimit.toNat
  | .retryCount => s.retryCount.toNat
  | .curveP => s.curveP
  | .curveA => s.curveA
  | .curveB => s.curveB
  | .curveN => s.curveN
  | .gX => s.g.x
  | .gY => s.g.y
  | .gInf => s.g.inf.toNat
  | .sc i => s.scalar i
  | .ptX i => (s.pointReg i).x
  | .ptY i => (s.pointReg i).y
  | .ptInf i => (s.pointReg i).inf.toNat

/-- `HostRead(r)`: an unmapped number reads as 0 (R62, R65). -/
def hostRead (r : RegNum) (s : State) : Nat :=
  match regMap r with
  | none => 0
  | some reg => s.readReg reg

/-- The registers a host write never changes (R63 (c)). -/
def HostReg.readOnly : HostReg → Bool
  | .errcode => true
  | .errcmd => true
  | .retryCount => true
  | _ => false

/-- The register takes the write data truncated to its width (R63 (f), R64). Data for a `W`-bit
register is `W` bits wide as it is (log entry 14). The control registers have cases of their own in
`hostWrite`. -/
def State.writeReg (reg : HostReg) (v : Nat) (s : State) : State :=
  match reg with
  | .retryLimit => { s with retryLimit := BitVec.ofNat 16 v }
  | .curveP => { s with curveP := v }
  | .curveA => { s with curveA := v }
  | .curveB => { s with curveB := v }
  | .curveN => { s with curveN := v }
  | .gX => { s with g := { s.g with x := v } }
  | .gY => { s with g := { s.g with y := v } }
  | .gInf => { s with g := { s.g with inf := v.testBit 0 } }
  | .sc i => s.setScalar i v
  | .ptX i => s.setPointReg i { s.pointReg i with x := v }
  | .ptY i => s.setPointReg i { s.pointReg i with y := v }
  | .ptInf i => s.setPointReg i { s.pointReg i with inf := v.testBit 0 }
  | .cmd | .status | .errcode | .errcmd | .ctrl | .retryCount => s

/-- A dropped write changes no register but sets `STATUS.HERR` (R65, R66). -/
def State.dropWrite (s : State) : State := { s with status := s.status.hostError }

/-- A write to `CMD` while the sequencer is idle: refused while `ERR = 1`, else accepted with bits 31:0
of the data (R63 (e); spec/10_state.md R25; spec/30_encoding.md R90). -/
def State.issue (v : Nat) (s : State) : State :=
  if s.status.err then s.dropWrite else s.accept (BitVec.ofNat 32 v)

/-- `HostWrite(r, v)`, the cases of R63 in its order. -/
def hostWrite (r : RegNum) (v : Nat) (s : State) : State :=
  match regMap r with
  | some .status => s.acknowledge v
  | some .ctrl => { s with ctrl := Ctrl.ofValue v }
  | none => s.dropWrite
  | some reg =>
    if reg.readOnly then s.dropWrite
    else if s.status.busy then s.dropWrite
    else
      match reg with
      | .cmd => s.issue v
      | other => s.writeReg other v

/-- A presented read: performed while `h_ready = 1`, its value on `h_rdata` (spec/20_memory.md R81). -/
def portRead (r : RegNum) (s : State) : State :=
  if s.hReady then { s with hRdata := hostRead r s } else s

/-- A presented write: performed while `h_ready = 1` (spec/20_memory.md R81; spec/70_reset_and_hazards.md R210;
log entry 5). -/
def portWrite (r : RegNum) (v : Nat) (s : State) : State :=
  if s.hReady then hostWrite r v s else s

end Sys2Proof.Machine
end

