-- ==== Sys2Proof/Machine/Step.lean ====
section
/-! DEFINITION. Step: one atomic step of the machine (spec/10_state.md R20; spec/70_reset_and_hazards.md R224):
a host transaction, a level of `rst_n`, or a move of the sequencer. -/

namespace Sys2Proof.Machine

/-- The sequencer's move: idle it does nothing; busy it decodes the latched word (spec/30_encoding.md R91)
and executes the command, or takes the fault `Illegal` (spec/60_exceptions.md R184). -/
def sequencer (s : State) : Outcome :=
  if s.rstN && s.status.busy then
    match Sys2Proof.decode s.cmd with
    | .ok i => exec i s
    | .error _ => .next (s.takeFault .illegal)
  else .next s

/-- One step: the oldest entry of `inputs` says what the outside does; with none left the sequencer
moves (log entry 2). -/
def step (s : State) : Host.Outcome State Fault Refusal :=
  match s.inputs with
  | [] => sequencer s
  | .quiet :: rest => sequencer { s with inputs := rest }
  | .read r :: rest => .next (portRead r { s with inputs := rest })
  | .write r v :: rest => .next (portWrite r v { s with inputs := rest })
  | .answer c :: rest => .next (State.offerAnswer c { s with inputs := rest })
  | .rstN level :: rest => .next (State.setReset level { s with inputs := rest })

/-- The accept of the table word `w` (log entry 7): the word is latched in `CMD` and `BUSY` is 1, as the
host's write to `CMD` leaves it (spec/10_state.md R25), `rst_n` is 1 and the outside presents nothing, so
that the next step is the sequencer's and runs `w`. -/
def State.withFetchWord (s : State) (nbits w : Nat) : State :=
  { s.accept (Sys2Proof.tableWord nbits w) with rstN := true, inputs := [] }

end Sys2Proof.Machine
end

