-- ==== Sys2Proof/Safety.lean ====
section
/-! DEFINITION. Safety: the terms claims use. Which states a run can reach (`State.Inv`), which registers a
command writes, and which parameters the spec calls valid (spec/00_scope.md R19). Nothing here is checked by
the hardware (R5). -/

namespace Sys2Proof

/-- The scalar registers a command may write (spec/30_encoding.md R93). -/
def Instr.scalarDests : Instr → List ScReg
  | .minv sd _ _ => [sd]
  | .padd _ _ _ => []
  | .pneg _ _ => []
  | .pmul _ _ _ => []
  | .egkey _ _ => []
  | .egenc _ _ _ _ _ => []
  | .egdec _ _ _ _ => []
  | .dsakg sd _ => [sd]
  | .dsasgn sr ss _ _ => [sr, ss]
  | .dsavfy _ _ _ _ => []

/-- The point registers a command may write (spec/30_encoding.md R93). -/
def Instr.pointDests : Instr → List PtReg
  | .minv _ _ _ => []
  | .padd pd _ _ => [pd]
  | .pneg pd _ => [pd]
  | .pmul pd _ _ => [pd]
  | .egkey pd _ => [pd]
  | .egenc pc1 pc2 _ _ _ => [pc1, pc2]
  | .egdec pd _ _ _ => [pd]
  | .dsakg _ pq => [pq]
  | .dsasgn _ _ _ _ => []
  | .dsavfy _ _ _ _ => []

/-- The commands that draw from the entropy port (spec/20_memory.md R75). -/
def Instr.draws : Instr → Bool
  | .dsakg _ _ => true
  | .dsasgn _ _ _ _ => true
  | _ => false

/-- The command whose result is `V` and `RNGE` (spec/10_state.md R27). -/
def Instr.verifies : Instr → Bool
  | .dsavfy _ _ _ _ => true
  | _ => false

namespace Machine

/-- Every register at the value of the Reset column of spec/10_state.md R39, the outputs low
(spec/10_state.md R42; spec/70_reset_and_hazards.md R210). -/
structure State.HoldsResetValues (s : State) : Prop where
  sc : ∀ i, s.scalar i = 0
  pt : ∀ i, s.pointReg i = ⟨true, 0, 0⟩
  curve : s.curveP = 0 ∧ s.curveA = 0 ∧ s.curveB = 0 ∧ s.curveN = 0
  g : s.g = ⟨true, 0, 0⟩
  cmd : s.cmd = 0#32
  status : s.status = ⟨false, false, false, false, false, false⟩
  errcode : s.errcode = 0#4
  errcmd : s.errcmd = 0#32
  ctrl : s.ctrl = ⟨false, false⟩
  retryLimit : s.retryLimit = 0x0020#16
  retryCount : s.retryCount = 0#16
  hidden : s.attempts = 0 ∧ s.rndReq = none
  irq : s.irq = false

/-- The numbers of the registers a host may write while idle, `CMD`, `STATUS` and `CTRL` apart
(spec/10_state.md R39). -/
def dataNumber (r : RegNum) : Prop :=
  r.val = 0x05 ∨ (0x08 ≤ r.val ∧ r.val ≤ 0x0E) ∨ (0x10 ≤ r.val ∧ r.val ≤ 0x17) ∨
    (0x20 ≤ r.val ∧ r.val % 4 ≠ 3)

/-- The numbers that name no register (spec/10_state.md R39). -/
def unmappedNumber (r : RegNum) : Prop :=
  r.val = 0x07 ∨ r.val = 0x0F ∨ (0x18 ≤ r.val ∧ r.val ≤ 0x1F) ∨ (0x20 ≤ r.val ∧ r.val % 4 = 3)

/-- Write data truncated to the width of the numbered register: 16 bits for `RETRY_LIMIT`, 1 bit for an
`INF` register, all of it for a `W`-bit register (spec/10_state.md R39; spec/20_memory.md R64). -/
def storedValue (r : RegNum) (v : Nat) : Nat :=
  if r.val = 0x05 then v % 2 ^ 16
  else if r.val = 0x0E ∨ (0x20 ≤ r.val ∧ r.val % 4 = 2) then v % 2
  else v

/-- A draw of the running loop may be taken: it is requested already, or the cap is off or not reached
(spec/44_ecdsa.md R163, R166). -/
def State.mayDraw (s : State) : Prop :=
  s.rndReq ≠ none ∨ s.retryLimit = 0#16 ∨ s.attempts ≠ s.retryLimit.toNat

/-- The number `t` of the attempt that takes the next draw: the next one, or the one whose request waits
(spec/44_ecdsa.md R163, R166). -/
def State.attemptNumber (s : State) : Nat :=
  if s.rndReq = none then s.attempts + 1 else s.attempts

/-- What the outside presents fits the ports of `w` bits (spec/20_memory.md R63, R75). -/
def Input.FitsWidth (w : Nat) : Input → Prop
  | .write _ v => fitsIn w v
  | .answer c => fitsIn w c
  | .read _ => True
  | .quiet => True
  | .rstN _ => True

/-- The coordinates of a point fit `w` bits. -/
def Point.FitsWidth (w : Nat) : Point → Prop
  | .identity => True
  | .affine x y => fitsIn w x ∧ fitsIn w y

/-- Every register of `w` bits, and every value on a `w`-bit port, is below `2^w` (spec/00_scope.md R6, R8;
spec/40_field_inverse.md R116). -/
structure State.FitsWidth (w : Nat) (s : State) : Prop where
  sc : ∀ i, fitsIn w (s.scalar i)
  pt : ∀ i, fitsIn w (s.pointReg i).x ∧ fitsIn w (s.pointReg i).y
  curveP : fitsIn w s.curveP
  curveA : fitsIn w s.curveA
  curveB : fitsIn w s.curveB
  curveN : fitsIn w s.curveN
  g : fitsIn w s.g.x ∧ fitsIn w s.g.y
  rndReq : ∀ bound, s.rndReq = some bound → fitsIn w bound
  hRdata : fitsIn w s.hRdata
  inputs : ∀ i ∈ s.inputs, i.FitsWidth w
  entropy : ∀ c ∈ s.entropy, fitsIn w c

/-- The invariant of the machine: what every step keeps. -/
structure State.Inv (s : State) : Prop where
  /-- No register overflows (spec/00_scope.md R8). -/
  fits : s.FitsWidth Config.W
  /-- A command runs only after `ERR` was acknowledged, and `DONE` was cleared at its accept
  (spec/10_state.md R25; spec/60_exceptions.md R189). -/
  busyClean : s.status.busy = true → s.status.err = false ∧ s.status.done = false
  /-- Hidden state does not survive commit (spec/10_state.md R40). -/
  idleHidden : s.status.busy = false → s.attempts = 0 ∧ s.rndReq = none
  /-- `V = 1` implies `RNGE = 0` (spec/10_state.md R27). -/
  verdict : s.status.v = true → s.status.rnge = false
  /-- Causes 5 to 15 are never produced (spec/10_state.md R28). -/
  causeRange : s.errcode.toNat ≤ 4
  /-- While `ERR = 1`, `ERRCODE` names a fault (spec/60_exceptions.md R185). -/
  errCause : s.status.err = true → s.errcode ≠ 0#4
  /-- A capped draw loop makes at most `RETRY_LIMIT` attempts (spec/60_exceptions.md R183). -/
  capped : s.status.busy = true → s.retryLimit ≠ 0#16 → s.attempts ≤ s.retryLimit.toNat
  /-- A request is for the range `[1, CURVE_N - 1]`, which is not empty (spec/20_memory.md R75). -/
  request : ∀ bound, s.rndReq = some bound →
    2 ≤ s.curveN ∧ bound = s.curveN - 1 ∧ 1 ≤ s.attempts
  /-- While `rst_n = 0` all state holds its reset value (spec/10_state.md R42; of `h_rdata`: log entry 6). -/
  inReset : s.rstN = false → s = s.assertReset

/-- Coordinates below `p`; the identity has none. -/
def Point.Reduced (p : Nat) : Point → Prop
  | .identity => True
  | .affine x y => x < p ∧ y < p

/-- A point of the curve `y^2 = x^3 + ax + b` over the integers modulo `p`, coordinates below `p`
(spec/00_scope.md R18, R19). -/
def Point.OnCurve (a b p : Nat) : Point → Prop
  | .identity => True
  | .affine x y => x < p ∧ y < p ∧ y * y % p = (x * x * x + a * x + b) % p

/-- Valid curve parameters (spec/00_scope.md R19): `p` prime and greater than 3, the curve non-singular. The
form of non-singularity is general knowledge (spec/93_implementation_defined.md GK5; log entry 17). -/
structure ValidCurve (a b p : Nat) : Prop where
  prime : p.Prime
  large : 3 < p
  nonsingular : (4 * a * a * a + 27 * b * b) % p ≠ 0

/-- Valid parameters with a base point (spec/00_scope.md R19): `n` is the prime order of `G`. -/
structure ValidGroup (a b p n : Nat) (G : Point) : Prop where
  curve : ValidCurve a b p
  onCurve : G.OnCurve a b p
  nontrivial : G ≠ .identity
  primeOrder : n.Prime
  order : mul n G a p = .ok .identity

/-- The parameter registers of a state hold valid parameters, with `CURVE_B` the coefficient `b`. -/
def State.ValidParams (s : State) : Prop :=
  ValidGroup s.curveA s.curveB s.curveP s.curveN s.basePoint

end Machine
end Sys2Proof
end

