-- ==== Sys2Proof/Certificates/Slice0/Obligations.lean ====
section
/-! DEFINITION. Obligations: the statements for the provers, in the order reset, encoding, step, host port,
units `MIE`, `APA`, `SM`, `EGU`, `DSU`, whole machine. -/

open Sys2Proof Sys2Proof.Machine

/-! ## Reset and invariant -/

/-- R42: the state after reset, and every state in which `rst_n` has fallen, holds the reset values, whatever
command was running; so does the first state after `rst_n` returns to 1. The levels of `rst_n` are entries of
`inputs` (log entry 2). -/
def Obligations.ResetGivesResetValues : Prop :=
  State.reset.HoldsResetValues ∧
  ∀ (s : State) (rest : List Input), s.inputs = .rstN false :: rest →
    ∃ t, step s = .next t ∧ t.HoldsResetValues ∧ t.rstN = false ∧ t.inputs = rest ∧
      ∀ rest', rest = .rstN true :: rest' →
        ∃ u, step t = .next u ∧ u.HoldsResetValues ∧ u.rstN = true ∧ u.inputs = rest'

/-- The reset state meets the invariant. -/
def Obligations.ResetMeetsInvariant : Prop := State.reset.Inv

/-- From every state that meets the invariant a step leads to one that meets it. That host data and answers
on offer are below `2^W` (log entry 14) and that `h_rdata` is 0 while `rst_n = 0` (log entry 6) are parts of
the invariant that the model chose. -/
def Obligations.StepKeepsInvariant : Prop :=
  ∀ s t : State, s.Inv → step s = .next t → t.Inv

/-- R210: while `rst_n = 0` no host transaction is performed (`h_ready = 0`), `rnd_req = 0`, `irq = 0`, and all
state holds its reset values, whatever the outside presents. Two things are the model's choice and no rule's:
what is presented is dropped (log entry 5), and `h_rdata` keeps its value (log entry 6; R81 gives it none
outside a performed read). -/
def Obligations.NothingHappensInReset : Prop :=
  ∀ s : State, s.Inv → s.rstN = false →
    s.hReady = false ∧ s.HoldsResetValues ∧
    ∃ t, step s = .next t ∧ t.HoldsResetValues ∧ t.hRdata = s.hRdata

/-! ## Encoding -/

/-- Decoding the word of a well-formed command gives the command back (R92, R93). -/
def Obligations.DecodeInvertsEncode : Prop :=
  ∀ i : Instr, i.wellFormed = true → decode (encode i) = .ok i

/-- R91: a word that decodes is the word of the command it decodes to, and of no other. -/
def Obligations.DecodedWordIsItsEncoding : Prop :=
  ∀ (c : CmdWord) (i : Instr), decode c = .ok i → i.wellFormed = true ∧ encode i = c

/-- R94: the match and mask of each command; no two rows select one word. -/
def Obligations.OpcodeRowsAreDisjoint : Prop :=
  (∀ c : CmdWord, opcodeRows.map (fun row => (row.mnemonic, row.selects c)) =
    [ (.minv, decide (c &&& 0xFF007FFF#32 = 0x01000000#32)),
      (.padd, decide (c &&& 0xFF007FFF#32 = 0x10000000#32)),
      (.pneg, decide (c &&& 0xFF03FFFF#32 = 0x11000000#32)),
      (.pmul, decide (c &&& 0xFF007FFF#32 = 0x20000000#32)),
      (.egkey, decide (c &&& 0xFF03FFFF#32 = 0x30000000#32)),
      (.egenc, decide (c &&& 0xFF0001FF#32 = 0x31000000#32)),
      (.egdec, decide (c &&& 0xFF000FFF#32 = 0x32000000#32)),
      (.dsakg, decide (c &&& 0xFF03FFFF#32 = 0x40000000#32)),
      (.dsasgn, decide (c &&& 0xFF000FFF#32 = 0x41000000#32)),
      (.dsavfy, decide (c &&& 0xFF000FFF#32 = 0x42000000#32)) ]) ∧
  ∀ (c : CmdWord) (x y : OpcodeRow), x ∈ opcodeRows → y ∈ opcodeRows →
    x.selects c = true → y.selects c = true → x = y

/-- R105: some of the spec's worked words; and R100: the word of `PDBL pd, pa` is that of `PADD pd, pa, pa`. -/
def Obligations.WorkedWordsDecode : Prop :=
  decode 0x01408000 = .ok (.minv 2 0 1) ∧
  decode 0x10650000 = .ok (.padd 3 1 2) ∧
  decode 0x11200000 = .ok (.pneg 1 0) ∧
  decode 0x314C1200 = .ok (.egenc 2 3 0 1 1) ∧
  decode 0x414C8000 = .ok (.dsasgn 2 3 1 0) ∧
  decode 0x424C8000 = .ok (.dsavfy 2 3 1 0) ∧
  decode 0x11208000 = .error .nonzeroReserved ∧
  decode 0x41488000 = .error .duplicateDestination ∧
  decode 0x00000000 = .error .unassignedOpcode ∧
  ∀ pd pa : PtReg,
    decode (BitVec.ofNat 32 (0x10000000 + pd.val * 2 ^ 21 + pa.val * 2 ^ 18 + pa.val * 2 ^ 15))
      = .ok (.padd pd pa pa)

/-! ## The step -/

/-- While a command runs and the outside presents nothing, a step executes the command its word decodes
to; a quiet entry of `inputs` is used up by the step (log entries 2, 4). -/
def Obligations.StepRunsTheDecodedCommand : Prop :=
  ∀ (s : State) (i : Instr), s.rstN = true → s.status.busy = true → decode s.cmd = .ok i →
    (s.inputs = [] → step s = exec i s) ∧
    (∀ rest, s.inputs = .quiet :: rest → step s = exec i { s with inputs := rest })

/-- R184: a running word that is the word of no command ends in the fault `Illegal`; no register but
`STATUS`, `ERRCODE`, `ERRCMD` changes. -/
def Obligations.IllegalWordTakesTheFault : Prop :=
  ∀ s : State, s.rstN = true → s.status.busy = true → s.inputs = [] →
    (∀ i : Instr, i.wellFormed = true → encode i ≠ s.cmd) →
    step s = .next
      { s with
        errcode := 3#4
        errcmd := s.cmd
        status := { s.status with err := true, done := true, busy := false }
        attempts := 0
        rndReq := none }

/-- A presented transaction is one step and its result is the transaction's; with nothing presented and no
command running the machine does not change (the model's own schedule, log entry 2; R61). -/
def Obligations.HostTransactionIsOneStep : Prop :=
  ∀ (s : State) (rest : List Input), s.rstN = true →
    (∀ r, s.inputs = .read r :: rest →
      step s = .next { s with inputs := rest, hRdata := hostRead r s }) ∧
    (∀ r v, s.inputs = .write r v :: rest →
      step s = .next (hostWrite r v { s with inputs := rest })) ∧
    (s.inputs = [] → s.status.busy = false → step s = .next s)

/-- Every command and every step answers a next state: the machine never stops (R5: every command rule is
total over all register contents; log entry 13). A command that no word selects, given to `exec` directly,
takes the fault `Illegal` (log entry 8). -/
def Obligations.NothingStopsTheMachine : Prop :=
  (∀ (i : Instr) (s : State), ∃ t, exec i s = .next t) ∧
  (∀ (i : Instr) (s : State), i.wellFormed = false → exec i s = .next (s.takeFault .illegal)) ∧
  ∀ s : State, ∃ t, step s = .next t

/-! ## Host port -/

/-- R25: a write to `CMD` of an idle machine without a pending fault is accepted; otherwise it is dropped and
`HERR` is set. -/
def Obligations.CmdWriteIsAcceptedOrDropped : Prop :=
  ∀ (s : State) (v : Nat),
    (s.status.busy = false → s.status.err = false →
      hostWrite 0x00 v s =
        { s with
          cmd := BitVec.ofNat 32 v
          status := { s.status with done := false, busy := true }
          attempts := 0
          rndReq := none }) ∧
    (s.status.busy = true ∨ s.status.err = true →
      hostWrite 0x00 v s = { s with status := { s.status with herr := true } }) ∧
    hostRead 0x00 s = s.cmd.toNat

/-- R26: the bits `STATUS` reads as, and a host write to it, which is W1C on bits 1, 2 and 3, is performed
while busy too, and changes nothing else. -/
def Obligations.StatusReadsAndClears : Prop :=
  ∀ (s : State) (v : Nat),
    hostRead 0x01 s < 64 ∧
    (hostRead 0x01 s).testBit 0 = s.status.busy ∧
    (hostRead 0x01 s).testBit 1 = s.status.done ∧
    (hostRead 0x01 s).testBit 2 = s.status.err ∧
    (hostRead 0x01 s).testBit 3 = s.status.herr ∧
    (hostRead 0x01 s).testBit 4 = s.status.v ∧
    (hostRead 0x01 s).testBit 5 = s.status.rnge ∧
    hostWrite 0x01 v s =
      { s with
        status :=
          { s.status with
            done := s.status.done && !v.testBit 1
            err := s.status.err && !v.testBit 2
            herr := s.status.herr && !v.testBit 3 } }

/-- R30: `CTRL` is writable at any time and reads its two bits back. -/
def Obligations.CtrlIsAlwaysWritable : Prop :=
  ∀ (s : State) (v : Nat),
    hostWrite 0x04 v s = { s with ctrl := ⟨v.testBit 0, v.testBit 1⟩ } ∧
    hostRead 0x04 (hostWrite 0x04 v s) = v % 4

/-- R66: while a command runs a write to `STATUS` or `CTRL` is performed, every other write is dropped and sets
`HERR`, so that no operand of the command changes; and a read gives what it gives of the idle machine,
`BUSY` in `STATUS` apart. -/
def Obligations.BusyWritesAreDropped : Prop :=
  ∀ (s : State) (r : RegNum) (v : Nat), s.status.busy = true →
    (r = 0x01 → hostWrite r v s = s.acknowledge v) ∧
    (r = 0x04 → hostWrite r v s = { s with ctrl := ⟨v.testBit 0, v.testBit 1⟩ }) ∧
    (r ≠ 0x01 → r ≠ 0x04 →
      hostWrite r v s = { s with status := { s.status with herr := true } }) ∧
    hostRead r s =
      hostRead r { s with status := { s.status with busy := false } } + (if r = 0x01 then 1 else 0)

/-- R65: an unmapped number reads as 0; a write to an unmapped or read-only number changes no register and
sets `HERR`, at any time. The three read-only numbers read as `ERRCODE`, `ERRCMD` and `RETRY_COUNT` (R28, R29,
R33, R62). -/
def Obligations.UnmappedAndReadOnlyWritesAreDropped : Prop :=
  ∀ (s : State) (r : RegNum) (v : Nat),
    (unmappedNumber r → hostRead r s = 0) ∧
    hostRead 0x02 s = s.errcode.toNat ∧
    hostRead 0x03 s = s.errcmd.toNat ∧
    hostRead 0x06 s = s.retryCount.toNat ∧
    (unmappedNumber r ∨ r = 0x02 ∨ r = 0x03 ∨ r = 0x06 →
      hostWrite r v s = { s with status := { s.status with herr := true } })

/-- R63 (f), R64, R43, R39: a write of an idle machine to a data register is read back truncated to the
register's width, and every other number reads as before: no two registers alias; and for each number of
R39 the register it reads and the one register it writes. Write data is `W` bits wide (log entry 14). -/
def Obligations.WrittenRegisterReadsBack : Prop :=
  ∀ (s : State) (r : RegNum) (v : Nat), s.status.busy = false → dataNumber r →
    fitsIn Config.W v →
    hostRead r (hostWrite r v s) = storedValue r v ∧
    (∀ r' : RegNum, r' ≠ r → hostRead r' (hostWrite r v s) = hostRead r' s) ∧
    (r = 0x05 → hostRead r s = s.retryLimit.toNat ∧
      hostWrite r v s = { s with retryLimit := BitVec.ofNat 16 v }) ∧
    (r = 0x08 → hostRead r s = s.curveP ∧ hostWrite r v s = { s with curveP := v }) ∧
    (r = 0x09 → hostRead r s = s.curveA ∧ hostWrite r v s = { s with curveA := v }) ∧
    (r = 0x0A → hostRead r s = s.curveB ∧ hostWrite r v s = { s with curveB := v }) ∧
    (r = 0x0B → hostRead r s = s.curveN ∧ hostWrite r v s = { s with curveN := v }) ∧
    (r = 0x0C → hostRead r s = s.g.x ∧ hostWrite r v s = { s with g := { s.g with x := v } }) ∧
    (r = 0x0D → hostRead r s = s.g.y ∧ hostWrite r v s = { s with g := { s.g with y := v } }) ∧
    (r = 0x0E → hostRead r s = s.g.inf.toNat ∧
      hostWrite r v s = { s with g := { s.g with inf := v.testBit 0 } }) ∧
    (∀ i : ScReg, r.val = 0x10 + i.val →
      hostRead r s = s.scalar i ∧ hostWrite r v s = s.setScalar i v) ∧
    ∀ i : PtReg,
      (r.val = 0x20 + 4 * i.val → hostRead r s = (s.pointReg i).x ∧
        hostWrite r v s = s.setPointReg i { s.pointReg i with x := v }) ∧
      (r.val = 0x21 + 4 * i.val → hostRead r s = (s.pointReg i).y ∧
        hostWrite r v s = s.setPointReg i { s.pointReg i with y := v }) ∧
      (r.val = 0x22 + 4 * i.val → hostRead r s = (s.pointReg i).inf.toNat ∧
        hostWrite r v s = s.setPointReg i { s.pointReg i with inf := v.testBit 0 })

/-- R188: the host's W1C write of `ERR` is the fault return: nothing is restored, `ERRCODE` and `ERRCMD` stay,
and the next write to `CMD` of the idle machine is accepted. -/
def Obligations.AcknowledgeReopensTheMachine : Prop :=
  ∀ (s : State) (v w : Nat), s.status.busy = false → v.testBit 2 = true →
    (hostWrite 0x01 v s).status.err = false ∧
    (hostWrite 0x01 v s).errcode = s.errcode ∧
    (hostWrite 0x01 v s).errcmd = s.errcmd ∧
    (hostWrite 0x00 w (hostWrite 0x01 v s)).status.busy = true ∧
    (hostWrite 0x00 w (hostWrite 0x01 v s)).cmd = BitVec.ofNat 32 w ∧
    (hostWrite 0x00 w (hostWrite 0x01 v s)).errcode = s.errcode ∧
    (hostWrite 0x00 w (hostWrite 0x01 v s)).errcmd = s.errcmd ∧
    (∀ i, (hostWrite 0x01 v s).scalar i = s.scalar i) ∧
    (∀ i, (hostWrite 0x01 v s).pointReg i = s.pointReg i)

/-! ## MIE -/

/-- R111: the word of `MINV`; where the modulus is not 0 and the operands are coprime it writes the unique
inverse in `[0, m)` and commits; otherwise it takes the fault `Arith` and writes no destination. -/
def Obligations.MinvWritesTheInverse : Prop :=
  ∀ (s : State) (sd sk sm : ScReg),
    encode (.minv sd sk sm) =
      BitVec.ofNat 32 (0x01000000 + sd.val * 2 ^ 21 + sk.val * 2 ^ 18 + sm.val * 2 ^ 15) ∧
    (s.scalar sm ≠ 0 → Nat.gcd (s.scalar sk) (s.scalar sm) = 1 →
      ∃ v : Nat, v < s.scalar sm ∧ s.scalar sk * v % s.scalar sm = 1 % s.scalar sm ∧
        (∀ w < s.scalar sm, s.scalar sk * w % s.scalar sm = 1 % s.scalar sm → w = v) ∧
        exec (.minv sd sk sm) s = .next (s.setScalar sd v).commit) ∧
    (s.scalar sm = 0 ∨ Nat.gcd (s.scalar sk) (s.scalar sm) ≠ 1 →
      exec (.minv sd sk sm) s = .next (s.takeFault .arith))

/-! ## APA -/

/-- R121 steps 1 to 3: `PADD` with an identity operand copies the other, and with equal `x` coordinates
writes the identity unless it doubles; neither `a` nor `p` is read, so none of these faults. -/
def Obligations.PaddWithoutArithmetic : Prop :=
  ∀ (s : State) (pd pa pb : PtReg),
    (s.point pa = .identity →
      exec (.padd pd pa pb) s = .next (s.setPoint pd (s.point pb)).commit) ∧
    (s.point pb = .identity →
      exec (.padd pd pa pb) s = .next (s.setPoint pd (s.point pa)).commit) ∧
    (∀ x yP yQ, s.point pa = .affine x yP → s.point pb = .affine x yQ → (yP ≠ yQ ∨ yP = 0) →
      exec (.padd pd pa pb) s = .next (s.setPoint pd .identity).commit)

/-- R121, R122: doubling with an invertible `2·y`, the slope in the reduced form of R122. -/
def Obligations.PaddDoubles : Prop :=
  ∀ (s : State) (pd pa pb : PtReg) (x y : Nat),
    s.point pa = .affine x y → s.point pb = .affine x y → y ≠ 0 →
    s.curveP ≠ 0 → Nat.gcd (2 * y) s.curveP = 1 →
    ∃ i l xR yR : Nat,
      i < s.curveP ∧ 2 * y * i % s.curveP = 1 % s.curveP ∧
      (l : Int) = (3 * x * x + s.curveA) * i % s.curveP ∧
      (xR : Int) = ((l : Int) * l - x - x) % s.curveP ∧
      (yR : Int) = ((l : Int) * ((x : Int) - xR) - y) % s.curveP ∧
      exec (.padd pd pa pb) s = .next (s.setPoint pd (.affine xR yR)).commit

/-- R121, R123: the chord, with an invertible difference of `x` coordinates of either sign. -/
def Obligations.PaddAddsDistinctPoints : Prop :=
  ∀ (s : State) (pd pa pb : PtReg) (xP yP xQ yQ : Nat),
    s.point pa = .affine xP yP → s.point pb = .affine xQ yQ → xP ≠ xQ →
    s.curveP ≠ 0 → Int.gcd ((xQ : Int) - xP) s.curveP = 1 →
    ∃ i l xR yR : Nat,
      i < s.curveP ∧ ((xQ : Int) - xP) * i % s.curveP = 1 % s.curveP ∧
      (l : Int) = ((yQ : Int) - yP) * i % s.curveP ∧
      (xR : Int) = ((l : Int) * l - xP - xQ) % s.curveP ∧
      (yR : Int) = ((l : Int) * ((xP : Int) - xR) - yP) % s.curveP ∧
      exec (.padd pd pa pb) s = .next (s.setPoint pd (.affine xR yR)).commit

/-- R121 to R123: `PADD` takes the fault `Arith` where the slope's denominator has no inverse. -/
def Obligations.PaddFaultsWithoutInverse : Prop :=
  ∀ (s : State) (pd pa pb : PtReg) (xP yP xQ yQ : Nat),
    s.point pa = .affine xP yP → s.point pb = .affine xQ yQ →
    (xP = xQ → yP = yQ → yP ≠ 0 → s.curveP = 0 ∨ Nat.gcd (2 * yP) s.curveP ≠ 1 →
      exec (.padd pd pa pb) s = .next (s.takeFault .arith)) ∧
    (xP ≠ xQ → s.curveP = 0 ∨ Int.gcd ((xQ : Int) - xP) s.curveP ≠ 1 →
      exec (.padd pd pa pb) s = .next (s.takeFault .arith))

/-- R126: the word of `PNEG`; it copies the identity, reduces `-y` and keeps `x`, and faults for an affine
point where `p = 0`. -/
def Obligations.PnegNegates : Prop :=
  ∀ (s : State) (pd pa : PtReg),
    encode (.pneg pd pa) = BitVec.ofNat 32 (0x11000000 + pd.val * 2 ^ 21 + pa.val * 2 ^ 18) ∧
    (s.point pa = .identity → exec (.pneg pd pa) s = .next (s.setPoint pd .identity).commit) ∧
    (∀ x y, s.point pa = .affine x y → s.curveP ≠ 0 →
      exec (.pneg pd pa) s =
        .next (s.setPoint pd (.affine x ((s.curveP - y % s.curveP) % s.curveP))).commit) ∧
    (∀ x y, s.point pa = .affine x y → s.curveP = 0 →
      exec (.pneg pd pa) s = .next (s.takeFault .arith))

/-- For all register contents `Add` is exactly commutative, faults included; an identity operand gives
the other operand without a fault; a coordinate of the result is below `p` unless the result is a copied
operand. The spec derives this from its pseudocode (spec/41_point_add.md section 2, R124). -/
def Obligations.AddIsCommutative : Prop :=
  ∀ (P Q : Point) (a p : Nat),
    add P Q a p = add Q P a p ∧
    add .identity Q a p = .ok Q ∧ add P .identity a p = .ok P ∧
    ∀ R, add P Q a p = .ok R →
      R.Reduced p ∨ (P = .identity ∧ R = Q) ∨ (Q = .identity ∧ R = P)

/-- R128: for valid parameters no `PADD` and no `PNEG` faults and results are on the curve; the identity is the
unit; `P + (-P)` is the identity, and `-P` is the only point of the curve that gives it. The form of
non-singularity is presumed (log entry 17). -/
def Obligations.ValidPointsHaveInverses : Prop :=
  (∀ (s : State) (pd pa pb : PtReg),
    ValidCurve s.curveA s.curveB s.curveP →
    (s.point pa).OnCurve s.curveA s.curveB s.curveP →
    (s.point pb).OnCurve s.curveA s.curveB s.curveP →
    (∃ R : Point, R.OnCurve s.curveA s.curveB s.curveP ∧
      exec (.padd pd pa pb) s = .next (s.setPoint pd R).commit) ∧
    (∃ N : Point, N.OnCurve s.curveA s.curveB s.curveP ∧
      exec (.pneg pd pa) s = .next (s.setPoint pd N).commit)) ∧
  (∀ (a b p : Nat) (P : Point), ValidCurve a b p → P.OnCurve a b p →
    add P .identity a p = .ok P ∧ add .identity P a p = .ok P ∧
    ∃ N : Point, neg P p = .ok N ∧ N.OnCurve a b p ∧ add P N a p = .ok .identity ∧
      ∀ M : Point, M.OnCurve a b p → add P M a p = .ok .identity → M = N)

/-! ## SM -/

/-- R136: `k = 0` or the identity gives the identity; neither `a` nor `p` is read, so nothing faults. -/
def Obligations.PmulOfZeroOrIdentity : Prop :=
  ∀ (s : State) (pd : PtReg) (sk : ScReg) (pa : PtReg),
    s.scalar sk = 0 ∨ s.point pa = .identity →
    exec (.pmul pd sk pa) s = .next (s.setPoint pd .identity).commit

/-- R136: the word of `PMUL`; it writes the product, or takes the fault `Arith` where the multiplication does;
for an odd prime `p` and coordinates below `p` it completes, with coordinates below `p` (R115: no fault for
valid parameters). -/
def Obligations.PmulWritesTheProduct : Prop :=
  ∀ (s : State) (pd : PtReg) (sk : ScReg) (pa : PtReg),
    encode (.pmul pd sk pa) =
      BitVec.ofNat 32 (0x20000000 + pd.val * 2 ^ 21 + sk.val * 2 ^ 18 + pa.val * 2 ^ 15) ∧
    (∀ R, mul (s.scalar sk) (s.point pa) s.curveA s.curveP = .ok R →
      exec (.pmul pd sk pa) s = .next (s.setPoint pd R).commit) ∧
    (∀ c, mul (s.scalar sk) (s.point pa) s.curveA s.curveP = .error c →
      exec (.pmul pd sk pa) s = .next (s.takeFault .arith)) ∧
    (s.curveP.Prime → s.curveP ≠ 2 → (s.point pa).Reduced s.curveP →
      ∃ R : Point, mul (s.scalar sk) (s.point pa) s.curveA s.curveP = .ok R ∧
        R.Reduced s.curveP ∧ exec (.pmul pd sk pa) s = .next (s.setPoint pd R).commit)

/-- R137 (d), R139: `PMUL` by 1 makes the unused doubling: where it succeeds the result is the operand itself,
where it faults so does the command. -/
def Obligations.PmulByOneMakesTheUnusedDoubling : Prop :=
  ∀ (s : State) (pd : PtReg) (sk : ScReg) (pa : PtReg), s.scalar sk = 1 →
    ((∃ D, add (s.point pa) (s.point pa) s.curveA s.curveP = .ok D) →
      exec (.pmul pd sk pa) s = .next (s.setPoint pd (s.point pa)).commit) ∧
    ((¬ ∃ D, add (s.point pa) (s.point pa) s.curveA s.curveP = .ok D) →
      exec (.pmul pd sk pa) s = .next (s.takeFault .arith))

/-- R136, R137: multiplying by an even scalar is doubling the point and multiplying by half the scalar,
faults included, for all operands: the loop goes from the least significant bit. -/
def Obligations.MulHalvesTheScalar : Prop :=
  ∀ (k : Nat) (P : Point) (a p : Nat), k ≠ 0 →
    mul (2 * k) P a p = (add P P a p).bind (fun D => mul k D a p)

/-- R136, R137 (b): the loop of `floor(log2 K) + 1` iterations is the loop that runs until the scalar is
exhausted: more fuel (log entry 12) changes nothing, and one iteration accumulates, doubles, shifts, in this
order. -/
def Obligations.MulLoopRunsBitLengthIterations : Prop :=
  ∀ (a p fuel : Nat) (R A : Point) (K : Nat), K ≠ 0 → Nat.log2 K + 1 ≤ fuel →
    mulLoop a p fuel R A K = mulLoop a p (Nat.log2 K + 1) R A K ∧
    mulLoop a p fuel R A K =
      (if K % 2 = 1 then add R A a p else .ok R).bind (fun R' =>
        (add A A a p).bind (fun A' => mulLoop a p (Nat.log2 K) R' A' (K / 2)))

/-- R140: for every valid curve and every point on it: the homomorphism property, the two identities, and
that multiples commute (validity: log entry 17). -/
def Obligations.MulIsHomomorphic : Prop :=
  ∀ (a b p : Nat) (P : Point) (j k : Nat), ValidCurve a b p → P.OnCurve a b p →
    mul 0 P a p = .ok .identity ∧ mul k .identity a p = .ok .identity ∧
    ∃ J K R : Point, mul j P a p = .ok J ∧ mul k P a p = .ok K ∧
      mul (j + k) P a p = .ok R ∧ add J K a p = .ok R ∧
      ∃ C : Point, mul j K a p = .ok C ∧ mul k J a p = .ok C

/-! ## EGU -/

/-- R146: the word of `EGKEY`; it writes the private scalar times `G`, or takes the fault `Arith` where the
multiplication does; a zero scalar and the identity as `G` give the identity, and so does the order of `G`;
for an odd prime `p` and `G` reduced it completes. -/
def Obligations.EgkeyWritesThePublicKey : Prop :=
  ∀ (s : State) (pd : PtReg) (sb : ScReg),
    encode (.egkey pd sb) = BitVec.ofNat 32 (0x30000000 + pd.val * 2 ^ 21 + sb.val * 2 ^ 18) ∧
    (∀ R, mul (s.scalar sb) s.basePoint s.curveA s.curveP = .ok R →
      exec (.egkey pd sb) s = .next (s.setPoint pd R).commit) ∧
    (∀ c, mul (s.scalar sb) s.basePoint s.curveA s.curveP = .error c →
      exec (.egkey pd sb) s = .next (s.takeFault .arith)) ∧
    (s.scalar sb = 0 ∨ s.basePoint = .identity ∨
        (s.scalar sb = s.curveN ∧ mul s.curveN s.basePoint s.curveA s.curveP = .ok .identity) →
      exec (.egkey pd sb) s = .next (s.setPoint pd .identity).commit) ∧
    (s.curveP.Prime → s.curveP ≠ 2 → s.basePoint.Reduced s.curveP →
      ∃ R : Point, mul (s.scalar sb) s.basePoint s.curveA s.curveP = .ok R ∧
        exec (.egkey pd sb) s = .next (s.setPoint pd R).commit)

/-- R148: the word of `EGENC`; with two destinations it writes `C1 = k·G` and `C2 = Pm + k·Pb`, or takes the
fault `Arith` where a sub-operation does; it completes for an odd prime `p` and reduced points; one
register as both destinations is `Illegal` at decode. -/
def Obligations.EgencWritesTheCiphertext : Prop :=
  ∀ (s : State) (pc1 pc2 pm : PtReg) (sk : ScReg) (pb : PtReg),
    encode (.egenc pc1 pc2 pm sk pb) =
      BitVec.ofNat 32 (0x31000000 + pc1.val * 2 ^ 21 + pc2.val * 2 ^ 18 + pm.val * 2 ^ 15
        + sk.val * 2 ^ 12 + pb.val * 2 ^ 9) ∧
    (pc1 = pc2 → s.rstN = true → s.status.busy = true → s.inputs = [] →
      s.cmd = encode (.egenc pc1 pc2 pm sk pb) → step s = .next (s.takeFault .illegal)) ∧
    (pc1 ≠ pc2 →
      (∀ S C1 C2, mul (s.scalar sk) (s.point pb) s.curveA s.curveP = .ok S →
        mul (s.scalar sk) s.basePoint s.curveA s.curveP = .ok C1 →
        add (s.point pm) S s.curveA s.curveP = .ok C2 →
        exec (.egenc pc1 pc2 pm sk pb) s = .next ((s.setPoint pc1 C1).setPoint pc2 C2).commit) ∧
      ((¬ ∃ S C1 C2, mul (s.scalar sk) (s.point pb) s.curveA s.curveP = .ok S ∧
          mul (s.scalar sk) s.basePoint s.curveA s.curveP = .ok C1 ∧
          add (s.point pm) S s.curveA s.curveP = .ok C2) →
        exec (.egenc pc1 pc2 pm sk pb) s = .next (s.takeFault .arith)) ∧
      (s.curveP.Prime → s.curveP ≠ 2 → s.basePoint.Reduced s.curveP →
        (s.point pm).Reduced s.curveP → (s.point pb).Reduced s.curveP →
        ∃ C1 C2, exec (.egenc pc1 pc2 pm sk pb) s =
          .next ((s.setPoint pc1 C1).setPoint pc2 C2).commit))

/-- R151: the word of `EGDEC`; it writes `C2 + (-(b·C1))`, or takes the fault `Arith` where a sub-operation
does; it completes for an odd prime `p` and reduced points. -/
def Obligations.EgdecWritesTheMessagePoint : Prop :=
  ∀ (s : State) (pd pc1 pc2 : PtReg) (sb : ScReg),
    encode (.egdec pd pc1 pc2 sb) =
      BitVec.ofNat 32 (0x32000000 + pd.val * 2 ^ 21 + pc1.val * 2 ^ 18 + pc2.val * 2 ^ 15
        + sb.val * 2 ^ 12) ∧
    (∀ S N M, mul (s.scalar sb) (s.point pc1) s.curveA s.curveP = .ok S →
      neg S s.curveP = .ok N → add (s.point pc2) N s.curveA s.curveP = .ok M →
      exec (.egdec pd pc1 pc2 sb) s = .next (s.setPoint pd M).commit) ∧
    ((¬ ∃ S N M, mul (s.scalar sb) (s.point pc1) s.curveA s.curveP = .ok S ∧
        neg S s.curveP = .ok N ∧ add (s.point pc2) N s.curveA s.curveP = .ok M) →
      exec (.egdec pd pc1 pc2 sb) s = .next (s.takeFault .arith)) ∧
    (s.curveP.Prime → s.curveP ≠ 2 →
      (s.point pc1).Reduced s.curveP → (s.point pc2).Reduced s.curveP →
      ∃ M, exec (.egdec pd pc1 pc2 sb) s = .next (s.setPoint pd M).commit)

/-- R97: a running word of `EGENC` or `DSASGN` with one register as both destinations ends in `Illegal` and does
nothing else; `DSAKG`, whose destinations lie in two files, always decodes. -/
def Obligations.DuplicateDestinationIsIllegal : Prop :=
  (∀ (s : State) (pc pm : PtReg) (sk : ScReg) (pb : PtReg),
    s.rstN = true → s.status.busy = true → s.inputs = [] →
    s.cmd = encode (.egenc pc pc pm sk pb) → step s = .next (s.takeFault .illegal)) ∧
  (∀ (s : State) (sr sz sd : ScReg),
    s.rstN = true → s.status.busy = true → s.inputs = [] →
    s.cmd = encode (.dsasgn sr sr sz sd) → step s = .next (s.takeFault .illegal)) ∧
  (∀ (sd : ScReg) (pq : PtReg), decode (encode (.dsakg sd pq)) = .ok (.dsakg sd pq))

/-- R152: for valid parameters, a key pair, any valid message point and any `k`, `EGDEC` of the outputs of
`EGENC` writes the message point (validity: log entry 17). `u` is the state after `EGENC`. -/
def Obligations.DecryptionInvertsEncryption : Prop :=
  ∀ (s : State) (pc1 pc2 pm pb pd : PtReg) (sk sb : ScReg),
    pc1 ≠ pc2 → s.ValidParams →
    (s.point pm).OnCurve s.curveA s.curveB s.curveP →
    mul (s.scalar sb) s.basePoint s.curveA s.curveP = .ok (s.point pb) →
    ∃ u : State, exec (.egenc pc1 pc2 pm sk pb) s = .next u ∧ u.status.err = s.status.err ∧
      exec (.egdec pd pc1 pc2 sb) u = .next (u.setPoint pd (s.point pm)).commit

/-! ## DSU -/

/-- R186: `DSAKG` and `DSASGN` with `CURVE_N < 2` take the fault `EmptyRange` before any draw and write 0 to
`RETRY_COUNT`; `DSAVFY` does not fault but reports `V = 0`, `RNGE = 1`. -/
def Obligations.EmptyRangeFaultsBeforeAnyDraw : Prop :=
  ∀ s : State, s.curveN < 2 →
    (∀ sd pq, exec (.dsakg sd pq) s = .next ({ s with retryCount := 0#16 }.takeFault .emptyRange)) ∧
    (∀ sr ss sz sd, sr ≠ ss →
      exec (.dsasgn sr ss sz sd) s = .next ({ s with retryCount := 0#16 }.takeFault .emptyRange)) ∧
    (∀ sr ss sz pq, ∃ t, exec (.dsavfy sr ss sz pq) s = .next t ∧
      t.status = { s.status with v := false, rnge := true, done := true, busy := false })

/-- R183: after `RETRY_LIMIT` rejected attempts `DSAKG` and `DSASGN` take the fault `Retry`, `RETRY_COUNT` is the
limit and no further draw is requested. -/
def Obligations.RetryFaultsAtTheLimit : Prop :=
  ∀ s : State, 2 ≤ s.curveN → s.rndReq = none → s.retryLimit ≠ 0#16 →
    s.attempts = s.retryLimit.toNat →
    (∀ sd pq,
      exec (.dsakg sd pq) s = .next ({ s with retryCount := s.retryLimit }.takeFault .retry)) ∧
    (∀ sr ss sz sd, sr ≠ ss →
      exec (.dsasgn sr ss sz sd) s = .next ({ s with retryCount := s.retryLimit }.takeFault .retry))

/-- R75: an attempt requests one draw with the bound `CURVE_N - 1`; while the request is unanswered the
sequencer does nothing else (log entries 3, 4). -/
def Obligations.UnansweredDrawWaits : Prop :=
  ∀ s : State, 2 ≤ s.curveN → s.entropy = [] →
    (s.rndReq = none → (s.retryLimit = 0#16 ∨ s.attempts ≠ s.retryLimit.toNat) →
      (∀ sd pq, exec (.dsakg sd pq) s =
        .next { s with attempts := s.attempts + 1, rndReq := some (s.curveN - 1) }) ∧
      (∀ sr ss sz sd, sr ≠ ss → exec (.dsasgn sr ss sz sd) s =
        .next { s with attempts := s.attempts + 1, rndReq := some (s.curveN - 1) })) ∧
    (∀ bound, s.rndReq = some bound →
      (∀ sd pq, exec (.dsakg sd pq) s = .next s) ∧
      (∀ sr ss sz sd, sr ≠ ss → exec (.dsasgn sr ss sz sd) s = .next s))

/-- An answer outside `[1, n - 1]` is consumed and rejected; the command goes on, and nothing but the hidden
attempt counter shows it (one attempt is one step: log entry 4). -/
def Obligations.OutOfRangeAnswerIsRejected : Prop :=
  ∀ (s : State) (c : Nat) (rest : List Nat), 2 ≤ s.curveN → s.mayDraw →
    s.entropy = c :: rest → (c < 1 ∨ s.curveN - 1 < c) →
    (∀ sd pq, exec (.dsakg sd pq) s =
      .next { s with attempts := s.attemptNumber, rndReq := none, entropy := rest }) ∧
    (∀ sr ss sz sd, sr ≠ ss → exec (.dsasgn sr ss sz sd) s =
      .next { s with attempts := s.attemptNumber, rndReq := none, entropy := rest })

/-- R163: the word of `DSAKG`; an answer in range ends it: where the multiplication gives a point, whatever the
parameters, private key, public key and `RETRY_COUNT` are written and it commits; where it faults `DSAKG` takes
the fault `Arith`, `RETRY_COUNT` holding the attempts and the answer consumed; for an odd prime `p` and `G`
reduced it commits (one attempt is one step: log entry 4). -/
def Obligations.DsakgWritesTheKeyPair : Prop :=
  ∀ (s : State) (sd : ScReg) (pq : PtReg),
    encode (.dsakg sd pq) = BitVec.ofNat 32 (0x40000000 + sd.val * 2 ^ 21 + pq.val * 2 ^ 18) ∧
    ∀ (c : Nat) (rest : List Nat),
      2 ≤ s.curveN → s.mayDraw → s.entropy = c :: rest → 1 ≤ c → c ≤ s.curveN - 1 →
      let committed (Q : Point) : State :=
        { (s.setScalar sd c).setPoint pq Q with
          retryCount := BitVec.ofNat 16 (min s.attemptNumber 0xFFFF)
          status := { s.status with done := true, busy := false }
          attempts := 0
          rndReq := none
          entropy := rest }
      (∀ Q, mul c s.basePoint s.curveA s.curveP = .ok Q →
        exec (.dsakg sd pq) s = .next (committed Q)) ∧
      (∀ e, mul c s.basePoint s.curveA s.curveP = .error e →
        exec (.dsakg sd pq) s =
          .next
            ({ s with
                retryCount := BitVec.ofNat 16 (min s.attemptNumber 0xFFFF)
                entropy := rest }.takeFault .arith)) ∧
      (s.curveP.Prime → s.curveP ≠ 2 → s.basePoint.Reduced s.curveP →
        ∃ Q : Point, mul c s.basePoint s.curveA s.curveP = .ok Q ∧
          exec (.dsakg sd pq) s = .next (committed Q))

/-- R165, R166: an in-range answer with an invertible nonce and non-zero `r` and `s` ends `DSASGN`: both halves
and `RETRY_COUNT` are written and it commits. -/
def Obligations.DsasgnWritesTheSignature : Prop :=
  ∀ (s : State) (sr ss sz sd : ScReg) (c xK yK i : Nat) (rest : List Nat),
    sr ≠ ss → 2 ≤ s.curveN → s.mayDraw →
    s.entropy = c :: rest → 1 ≤ c → c ≤ s.curveN - 1 →
    mul c s.basePoint s.curveA s.curveP = .ok (.affine xK yK) →
    i < s.curveN → c * i % s.curveN = 1 →
    xK % s.curveN ≠ 0 →
    i * (s.scalar sz + xK % s.curveN * s.scalar sd) % s.curveN ≠ 0 →
    exec (.dsasgn sr ss sz sd) s =
      .next
        { (s.setScalar sr (xK % s.curveN)).setScalar ss
            (i * (s.scalar sz + xK % s.curveN * s.scalar sd) % s.curveN) with
          retryCount := BitVec.ofNat 16 (min s.attemptNumber 0xFFFF)
          status := { s.status with done := true, busy := false }
          attempts := 0
          rndReq := none
          entropy := rest }

/-- R165, R166: the fault of the multiplication, the three rejections of an in-range answer, and the fault of a
nonce without inverse; a fault leaves the attempts in `RETRY_COUNT` and the answer consumed. -/
def Obligations.SignAttemptRejectsOrFaults : Prop :=
  ∀ (s : State) (sr ss sz sd : ScReg) (c : Nat) (rest : List Nat),
    sr ≠ ss → 2 ≤ s.curveN → s.mayDraw →
    s.entropy = c :: rest → 1 ≤ c → c ≤ s.curveN - 1 →
    (∀ e, mul c s.basePoint s.curveA s.curveP = .error e →
      exec (.dsasgn sr ss sz sd) s =
        .next
          ({ s with
              retryCount := BitVec.ofNat 16 (min s.attemptNumber 0xFFFF)
              entropy := rest }.takeFault .arith)) ∧
    (mul c s.basePoint s.curveA s.curveP = .ok .identity →
      exec (.dsasgn sr ss sz sd) s =
        .next { s with attempts := s.attemptNumber, rndReq := none, entropy := rest }) ∧
    (∀ xK yK, mul c s.basePoint s.curveA s.curveP = .ok (.affine xK yK) → xK % s.curveN = 0 →
      exec (.dsasgn sr ss sz sd) s =
        .next { s with attempts := s.attemptNumber, rndReq := none, entropy := rest }) ∧
    (∀ xK yK i, mul c s.basePoint s.curveA s.curveP = .ok (.affine xK yK) → xK % s.curveN ≠ 0 →
      i < s.curveN → c * i % s.curveN = 1 →
      i * (s.scalar sz + xK % s.curveN * s.scalar sd) % s.curveN = 0 →
      exec (.dsasgn sr ss sz sd) s =
        .next { s with attempts := s.attemptNumber, rndReq := none, entropy := rest }) ∧
    (∀ xK yK, mul c s.basePoint s.curveA s.curveP = .ok (.affine xK yK) → xK % s.curveN ≠ 0 →
      Nat.gcd c s.curveN ≠ 1 →
      exec (.dsasgn sr ss sz sd) s =
        .next
          ({ s with
              retryCount := BitVec.ofNat 16 (min s.attemptNumber 0xFFFF)
              entropy := rest }.takeFault .arith))

/-- R166: the halves a committed `DSASGN` writes lie in `[1, n - 1]`. -/
def Obligations.SignatureHalvesAreInRange : Prop :=
  ∀ (s t : State) (sr ss sz sd : ScReg),
    exec (.dsasgn sr ss sz sd) s = .next t → s.status.busy = true → s.status.err = false →
    t.status.busy = false → t.status.err = false →
    1 ≤ t.scalar sr ∧ t.scalar sr ≤ s.curveN - 1 ∧ 1 ≤ t.scalar ss ∧ t.scalar ss ≤ s.curveN - 1

/-- R168, R169: `DSAVFY` with `r` or `s` outside `[1, n - 1]` fails closed: `V` is 0, `RNGE` is 1, no fault, for any
other contents of the registers. -/
def Obligations.DsavfyRangeFailure : Prop :=
  ∀ (s : State) (sr ss sz : ScReg) (pq : PtReg),
    (s.scalar sr < 1 ∨ s.curveN ≤ s.scalar sr ∨ s.scalar ss < 1 ∨ s.curveN ≤ s.scalar ss) →
    exec (.dsavfy sr ss sz pq) s =
      .next { s with
        status := { s.status with v := false, rnge := true, done := true, busy := false }
        attempts := 0
        rndReq := none }

/-- R168, R169: `DSAVFY` in range with an invertible `s` writes whether the combined point has `x` congruent to
`r`, wherever the point arithmetic gives a point, whatever the parameters; the identity fails. For an odd prime
`p` and reduced points it gives one. -/
def Obligations.DsavfyWritesTheVerdict : Prop :=
  ∀ (s : State) (sr ss sz : ScReg) (pq : PtReg),
    1 ≤ s.scalar sr → s.scalar sr < s.curveN → 1 ≤ s.scalar ss → s.scalar ss < s.curveN →
    let committed (verdict : Bool) : State :=
      { s with
        status := { s.status with v := verdict, rnge := false, done := true, busy := false }
        attempts := 0
        rndReq := none }
    (∀ (w : Nat) (X1 X2 X : Point),
      w < s.curveN → s.scalar ss * w % s.curveN = 1 →
      mul (s.scalar sz * w % s.curveN) s.basePoint s.curveA s.curveP = .ok X1 →
      mul (s.scalar sr * w % s.curveN) (s.point pq) s.curveA s.curveP = .ok X2 →
      add X1 X2 s.curveA s.curveP = .ok X →
      (X = .identity → exec (.dsavfy sr ss sz pq) s = .next (committed false)) ∧
      (∀ x y, X = .affine x y → exec (.dsavfy sr ss sz pq) s =
        .next (committed (decide (x % s.curveN = s.scalar sr))))) ∧
    (Nat.gcd (s.scalar ss) s.curveN = 1 →
      s.curveP.Prime → s.curveP ≠ 2 →
      s.basePoint.Reduced s.curveP → (s.point pq).Reduced s.curveP →
      ∃ (w : Nat) (X1 X2 X : Point),
        w < s.curveN ∧ s.scalar ss * w % s.curveN = 1 ∧
        mul (s.scalar sz * w % s.curveN) s.basePoint s.curveA s.curveP = .ok X1 ∧
        mul (s.scalar sr * w % s.curveN) (s.point pq) s.curveA s.curveP = .ok X2 ∧
        add X1 X2 s.curveA s.curveP = .ok X ∧
        (X = .identity → exec (.dsavfy sr ss sz pq) s = .next (committed false)) ∧
        (∀ x y, X = .affine x y → exec (.dsavfy sr ss sz pq) s =
          .next (committed (decide (x % s.curveN = s.scalar sr)))))

/-- `DSAVFY` that faults clears `V` and `RNGE` and takes `Arith`: where `r` and `s` are in range and `s` has no
inverse, and wherever else the verification faults. -/
def Obligations.DsavfyFaultFailsClosed : Prop :=
  ∀ (s : State) (sr ss sz : ScReg) (pq : PtReg),
    ((1 ≤ s.scalar sr ∧ s.scalar sr < s.curveN ∧ 1 ≤ s.scalar ss ∧ s.scalar ss < s.curveN ∧
        Nat.gcd (s.scalar ss) s.curveN ≠ 1) ∨
      ∃ c, verify (s.scalar sr) (s.scalar ss) (s.scalar sz) (s.point pq) s.curveN s.basePoint
        s.curveA s.curveP = .error c) →
    exec (.dsavfy sr ss sz pq) s =
      .next { s with
        status :=
          { s.status with v := false, rnge := false, err := true, done := true, busy := false }
        errcode := 1#4
        errcmd := s.cmd
        attempts := 0
        rndReq := none }

/-- R161: signing and verification depend on the hash integer only through its residue modulo `n`. -/
def Obligations.OnlyTheHashResidueMatters : Prop :=
  ∀ (z z' n : Nat), z % n = z' % n → n ≠ 0 →
    (∀ (d : Nat) (G : Point) (a p c : Nat),
      signAttempt z d n G a p c = signAttempt z' d n G a p c) ∧
    (∀ (r s : Nat) (Q G : Point) (a p : Nat),
      verify r s z Q n G a p = verify r s z' Q n G a p)

/-- R171: for valid parameters, a signature that `DSASGN` commits verifies, unless it overwrote the hash register
`sz`: `DSAVFY` under the public key of the signing key ends with `V = 1`, `RNGE = 0` and no fault (validity: log
entry 17). `t` is the state after the signing command. -/
def Obligations.SignatureVerifies : Prop :=
  ∀ (s t : State) (sr ss sz sd : ScReg) (pq : PtReg),
    s.ValidParams →
    mul (s.scalar sd) s.basePoint s.curveA s.curveP = .ok (s.point pq) →
    sz ≠ sr → sz ≠ ss →
    exec (.dsasgn sr ss sz sd) s = .next t → s.status.busy = true → s.status.err = false →
    t.status.busy = false → t.status.err = false →
    ∃ u : State, exec (.dsavfy sr ss sz pq) t = .next u ∧
      u.status.v = true ∧ u.status.rnge = false ∧ u.status.err = false ∧ u.status.done = true

/-! ## The whole machine -/

/-- The frame of every command: whatever it ends in, it changes no scalar register and no point register but
its destinations, and of the other registers only those the spec names for it. Two clauses are the model's
choice and no rule's: `h_rdata` stays (log entry 6), and a step takes at most one answer (log entry 4). -/
def Obligations.CommandFrame : Prop :=
  ∀ (i : Instr) (s t : State), exec i s = .next t →
    (∀ r, r ∉ i.scalarDests → t.scalar r = s.scalar r) ∧
    (∀ r, r ∉ i.pointDests → t.pointReg r = s.pointReg r) ∧
    t.curveP = s.curveP ∧ t.curveA = s.curveA ∧ t.curveB = s.curveB ∧ t.curveN = s.curveN ∧
    t.g = s.g ∧ t.cmd = s.cmd ∧ t.ctrl = s.ctrl ∧ t.retryLimit = s.retryLimit ∧
    t.status.herr = s.status.herr ∧ t.rstN = s.rstN ∧ t.hRdata = s.hRdata ∧ t.inputs = s.inputs ∧
    (i.draws = false → t.retryCount = s.retryCount ∧ t.entropy = s.entropy) ∧
    (t.entropy = s.entropy ∨ ∃ c, s.entropy = c :: t.entropy) ∧
    (i.verifies = false → t.status.v = s.status.v ∧ t.status.rnge = s.status.rnge)

/-- R185: a command that ends in a fault writes no scalar, point or curve-parameter register; it records
cause and word and leaves the sequencer idle. -/
def Obligations.FaultIsPrecise : Prop :=
  ∀ (i : Instr) (s t : State), exec i s = .next t → s.status.err = false → t.status.err = true →
    (∀ r, t.scalar r = s.scalar r) ∧ (∀ r, t.pointReg r = s.pointReg r) ∧
    t.curveP = s.curveP ∧ t.curveA = s.curveA ∧ t.curveB = s.curveB ∧ t.curveN = s.curveN ∧
    t.g = s.g ∧
    (∃ c : Cause, t.errcode = c.code) ∧ t.errcmd = s.cmd ∧
    t.status.done = true ∧ t.status.busy = false ∧ t.attempts = 0 ∧ t.rndReq = none ∧
    (i.draws = false → t.retryCount = s.retryCount) ∧
    (i.verifies = true → t.status.v = false ∧ t.status.rnge = false)

/-- R193: a command that ends without a fault sets `DONE`, clears `BUSY` and leaves `ERR`, `ERRCODE` and
`ERRCMD` as they were. -/
def Obligations.CommitKeepsTheFaultRegisters : Prop :=
  ∀ (i : Instr) (s t : State), exec i s = .next t → s.status.err = false → t.status.err = false →
    t.errcode = s.errcode ∧ t.errcmd = s.errcmd ∧
    (s.status.busy = true →
      (t.status.busy = false ∧ t.status.done = true ∧ t.attempts = 0 ∧ t.rndReq = none) ∨
      (t.status.busy = true ∧ t.status.done = s.status.done ∧ i.draws = true ∧
        (∀ r, t.scalar r = s.scalar r) ∧ (∀ r, t.pointReg r = s.pointReg r)))

/-- R189: while `ERR = 1` no command runs, no step but a reset changes `ERRCODE` or `ERRCMD`, and a write to
`CMD` is dropped with `HERR` set. -/
def Obligations.FaultsNeverNest : Prop :=
  ∀ s t : State, s.Inv → s.status.err = true →
    s.status.busy = false ∧
    (∀ v, hostWrite 0x00 v s = { s with status := { s.status with herr := true } }) ∧
    (step s = .next t → (t.errcode = s.errcode ∧ t.errcmd = s.errcmd) ∨ t.rstN = false)

/-- R27: `V` and `RNGE` change only by a running `DSAVFY` or by reset. -/
def Obligations.VerdictChangesOnlyByDsavfy : Prop :=
  ∀ s t : State, step s = .next t →
    (t.status.v ≠ s.status.v ∨ t.status.rnge ≠ s.status.rnge) →
    (∃ sr ss sz pq, s.status.busy = true ∧ decode s.cmd = .ok (.dsavfy sr ss sz pq)) ∨
    t.rstN = false

/-- R36: `CURVE_B` is 0 after reset, is written and read back by the idle host, and no command reads it: a
command run with another `CURVE_B` ends in the same state but for it. -/
def Obligations.NoCommandReadsCurveB : Prop :=
  State.reset.curveB = 0 ∧
  (∀ (s : State) (v : Nat), s.status.busy = false → fitsIn Config.W v →
    hostRead 0x0A (hostWrite 0x0A v s) = v ∧ hostWrite 0x0A v s = { s with curveB := v }) ∧
  ∀ (i : Instr) (s t : State) (b : Nat), exec i s = .next t →
    exec i { s with curveB := b } = .next { t with curveB := b }

/-- R190: the interrupt line is the OR of the enabled pending bits and 0 after reset; a W1C write to a pending
bit clears its source and an accept clears the done source; it is 1 after every command that ends while
`DIE` is set and after every fault while `EIE` is set. -/
def Obligations.InterruptFollowsStatus : Prop :=
  (∀ s : State, s.irq = ((s.status.done && s.ctrl.die) || (s.status.err && s.ctrl.eie))) ∧
  State.reset.irq = false ∧
  (∀ (s : State) (v : Nat), (hostWrite 0x01 v s).irq =
    ((s.status.done && !v.testBit 1 && s.ctrl.die) || (s.status.err && !v.testBit 2 && s.ctrl.eie))) ∧
  (∀ (s : State) (v : Nat), s.status.busy = false → s.status.err = false →
    (hostWrite 0x00 v s).irq = false) ∧
  ∀ (i : Instr) (s t : State), exec i s = .next t → s.status.busy = true → t.status.busy = false →
    (s.ctrl.die = true → t.irq = true) ∧
    (s.ctrl.eie = true → t.status.err = true → t.irq = true)

/-- R201 (a): a command whose draw is never answered never commits: with no answer and nothing from outside
its state does not change, for any number of steps (log entry 3). -/
def Obligations.UnansweredCommandHangs : Prop :=
  ∀ (s : State) (i : Instr) (bound k : Nat), s.Inv → s.status.busy = true → s.rstN = true →
    decode s.cmd = .ok i → i.draws = true → s.rndReq = some bound →
    s.inputs = [] → s.entropy = [] →
    Host.Core.run Sys2Proof.core k s = .next s

/-- R201: with a cap and an entropy source that answers, every running command commits within
`RETRY_LIMIT + 1` moves of the sequencer (one attempt is one move: log entries 3, 4). -/
def Obligations.CappedCommandTerminates : Prop :=
  ∀ s : State, s.Inv → s.status.busy = true → s.rstN = true → s.inputs = [] →
    s.retryLimit ≠ 0#16 → s.retryLimit.toNat ≤ s.entropy.length →
    ∃ k t, k ≤ s.retryLimit.toNat + 1 ∧ Host.Core.run Sys2Proof.core k s = .next t ∧
      t.status.busy = false ∧ t.status.done = true
end

