-- ==== Sys2Proof/Laws/Field.lean ====
section
/-! SUPPORT. Laws/Field: `reduce` and `inv` by contract (spec/00_scope.md R9; spec/40_field_inverse.md R112). -/

namespace Sys2Proof.Machine

@[simp] theorem reduce_zero (v : Int) : reduce v 0 = .error .arith := rfl

theorem reduce_pos {m : Nat} (hm : m ≠ 0) (v : Int) :
    reduce v m = .ok (v % (m : Int)).toNat := by
  simp [reduce, hm]

/-- The residue as an integer: non-negative and below the modulus. -/
theorem emod_toNat_cast {m : Nat} (hm : m ≠ 0) (v : Int) :
    (((v % (m : Int)).toNat : Nat) : Int) = v % (m : Int) :=
  Int.toNat_of_nonneg (Int.emod_nonneg _ (by exact_mod_cast hm))

theorem emod_toNat_lt {m : Nat} (hm : m ≠ 0) (v : Int) : (v % (m : Int)).toNat < m := by
  have h := Int.emod_lt_of_pos v (show (0 : Int) < m by omega)
  have := emod_toNat_cast hm v
  omega

theorem reduce_ok_iff {v : Int} {m r : Nat} :
    reduce v m = .ok r ↔ m ≠ 0 ∧ (r : Int) = v % (m : Int) := by
  by_cases hm : m = 0
  · subst hm; simp
  · rw [reduce_pos hm]
    constructor
    · intro h
      cases h
      exact ⟨hm, emod_toNat_cast hm v⟩
    · rintro ⟨-, h⟩
      rw [← h]; simp

theorem reduce_ok_lt {v : Int} {m r : Nat} (h : reduce v m = .ok r) : r < m := by
  obtain ⟨hm, hr⟩ := reduce_ok_iff.1 h
  have := Int.emod_lt_of_pos v (show (0 : Int) < m by omega)
  omega

/-- The only fault of a reduction is `Arith`, at the zero modulus. -/
theorem reduce_error {v : Int} {m : Nat} {c : Cause} (h : reduce v m = .error c) :
    c = .arith ∧ m = 0 := by
  unfold reduce at h
  split at h <;> simp_all

/-- `reduce` sees its argument modulo `m` only. -/
theorem reduce_congr {v w : Int} {m : Nat} (h : v % (m : Int) = w % (m : Int)) :
    reduce v m = reduce w m := by
  unfold reduce; rw [h]

/-- The Euclidean loop keeps the greatest common divisor and the Bézout coefficient of `k`. -/
theorem euclid_spec (m k : Int) (fuel : Nat) : ∀ (r0 r1 : Nat) (t0 t1 : Int), r1 < fuel →
    m ∣ t0 * k - r0 → m ∣ t1 * k - r1 →
    (euclid fuel r0 r1 t0 t1).1 = Nat.gcd r0 r1 ∧
      m ∣ (euclid fuel r0 r1 t0 t1).2 * k - ((euclid fuel r0 r1 t0 t1).1 : Nat) := by
  induction fuel with
  | zero => intro r0 r1 t0 t1 h; omega
  | succ fuel ih =>
    intro r0 r1 t0 t1 hf h0 h1
    unfold euclid
    split
    · next hr => subst hr; simpa using h0
    · next hr =>
      have hlt : r0 % r1 < fuel := by
        have := Nat.mod_lt r0 (Nat.pos_of_ne_zero hr); omega
      have hstep : m ∣ (t0 - (r0 / r1 : Nat) * t1) * k - ((r0 % r1 : Nat) : Int) := by
        have hdm : (r0 : Int) = r1 * (r0 / r1 : Nat) + (r0 % r1 : Nat) := by
          exact_mod_cast (Nat.div_add_mod r0 r1).symm
        have : (t0 - (r0 / r1 : Nat) * t1) * k - ((r0 % r1 : Nat) : Int)
            = (t0 * k - r0) - (r0 / r1 : Nat) * (t1 * k - r1) := by
          rw [hdm]; ring
        rw [this]
        exact dvd_sub h0 (Dvd.dvd.mul_left h1 _)
      obtain ⟨hg, hd⟩ := ih r1 (r0 % r1) t1 _ hlt h1 hstep
      refine ⟨?_, hd⟩
      rw [hg, Nat.gcd_comm r0 r1, Nat.gcd_rec r1 r0, Nat.gcd_comm]

theorem gcd_emod_toNat {m : Nat} (hm : m ≠ 0) (k : Int) :
    Nat.gcd m (k % (m : Int)).toNat = Int.gcd k m := by
  rw [Nat.gcd_comm, ← Int.gcd_natCast_natCast, emod_toNat_cast hm, Int.gcd_emod]

/-- What the loop of `inv` answers. -/
theorem euclid_of_operand {m : Nat} (hm : m ≠ 0) (k : Int) :
    (euclid (m + 1) m (k % (m : Int)).toNat 0 1).1 = Int.gcd k m ∧
      (m : Int) ∣ (euclid (m + 1) m (k % (m : Int)).toNat 0 1).2 * k - Int.gcd k m := by
  have h := euclid_spec m k (m + 1) m (k % (m : Int)).toNat 0 1
    (by have := emod_toNat_lt hm k; omega) (by simp)
    (by rw [emod_toNat_cast hm, one_mul]; exact Int.dvd_self_sub_emod)
  rw [gcd_emod_toNat hm] at h
  exact ⟨h.1, h.1 ▸ h.2⟩

/-- `Inv` faults exactly where the modulus is 0 or the operands share a factor (R112). -/
theorem inv_error_iff {k : Int} {m : Nat} {c : Cause} :
    inv k m = .error c ↔ c = .arith ∧ (m = 0 ∨ Int.gcd k m ≠ 1) := by
  unfold inv
  by_cases hm : m = 0
  · simp [hm, eq_comm]
  · obtain ⟨h1, -⟩ := euclid_of_operand hm k
    rw [if_neg hm]
    split
    · next t heq => rw [heq] at h1; simp [← h1, hm]
    · next x hx =>
      have : Int.gcd k m ≠ 1 := by
        intro hg
        exact hx (euclid (m + 1) m (k % (m : Int)).toNat 0 1).2 (Prod.ext (h1.trans hg) rfl)
      simp [this, eq_comm]

theorem mul_inverse_unique {k : Int} {m v w : Nat} (hv : v < m) (hw : w < m)
    (h1 : (m : Int) ∣ k * v - 1) (h2 : (m : Int) ∣ k * w - 1) : v = w := by
  have hd : (m : Int) ∣ (v : Int) - w := by
    have : (v : Int) - w = w * (k * v - 1) - v * (k * w - 1) := by ring
    rw [this]
    exact dvd_sub (Dvd.dvd.mul_left h1 _) (Dvd.dvd.mul_left h2 _)
  have he : (v : Int) % m = (w : Int) % m :=
    Int.emod_eq_emod_iff_emod_sub_eq_zero.2 (Int.emod_eq_zero_of_dvd hd)
  rw [Int.emod_eq_of_lt (by omega) (by omega), Int.emod_eq_of_lt (by omega) (by omega)] at he
  exact_mod_cast he

/-- `Inv` by contract (R112): the unique inverse in `[0, m)`. -/
theorem inv_ok_iff {k : Int} {m v : Nat} :
    inv k m = .ok v ↔ Int.gcd k m = 1 ∧ v < m ∧ (m : Int) ∣ k * v - 1 := by
  by_cases hm : m = 0
  · subst hm; simp [inv]
  · have key : ∀ u : Nat, inv k m = .ok u →
        Int.gcd k m = 1 ∧ u < m ∧ (m : Int) ∣ k * u - 1 := by
      intro u hu
      obtain ⟨h1, h2⟩ := euclid_of_operand hm k
      unfold inv at hu
      rw [if_neg hm] at hu
      split at hu
      · next t heq =>
        rw [heq] at h1 h2
        cases hu
        rw [← h1] at h2
        refine ⟨h1.symm, emod_toNat_lt hm t, ?_⟩
        rw [emod_toNat_cast hm]
        have : k * (t % (m : Int)) - 1 = (t * k - (1 : Nat)) - k * (t - t % m) := by push_cast; ring
        rw [this]
        exact dvd_sub h2 (Dvd.dvd.mul_left Int.dvd_self_sub_emod _)
      · cases hu
    refine ⟨key v, fun ⟨hg, hv, hd⟩ => ?_⟩
    cases h : inv k m with
    | error c => exact absurd hg ((inv_error_iff.1 h).2.resolve_left hm)
    | ok u =>
      obtain ⟨-, hu, hud⟩ := key u h
      rw [mul_inverse_unique hv hu hd hud]

theorem inv_lt {k : Int} {m v : Nat} (h : inv k m = .ok v) : v < m := (inv_ok_iff.1 h).2.1

/-- `Inv` completes where the modulus is not 0 and the operands are coprime (R112). -/
theorem inv_total {k : Int} {m : Nat} (hm : m ≠ 0) (hg : Int.gcd k m = 1) :
    ∃ v, inv k m = .ok v := by
  cases h : inv k m with
  | ok v => exact ⟨v, rfl⟩
  | error c => exact absurd hg ((inv_error_iff.1 h).2.resolve_left hm)

end Sys2Proof.Machine
end

