-- ==== Sys2Proof/Laws/Curve.lean ====
section
/-! SUPPORT. Laws/Curve: what `add`, `neg` and `mul` can answer (spec/41_point_add.md, spec/42_scalar_mult.md). -/

namespace Sys2Proof.Machine

/-! ### Results as values: a bind is a value or the first fault -/

theorem bind_ok_iff {α β : Type} {r : Result α} {f : α → Result β} {b : β} :
    (r >>= f) = .ok b ↔ ∃ a, r = .ok a ∧ f a = .ok b := by
  cases r <;> simp [bind, Except.bind]

theorem bind_error_iff {α β : Type} {r : Result α} {f : α → Result β} {c : Cause} :
    (r >>= f) = .error c ↔ r = .error c ∨ ∃ a, r = .ok a ∧ f a = .error c := by
  cases r <;> simp [bind, Except.bind]

/-! ### Points -/

@[simp] theorem Point.reduced_identity (p : Nat) : Point.Reduced p .identity := trivial

@[simp] theorem Point.reduced_affine {p x y : Nat} :
    Point.Reduced p (.affine x y) ↔ x < p ∧ y < p := Iff.rfl

theorem Point.OnCurve.reduced {a b p : Nat} {P : Point} (h : P.OnCurve a b p) : P.Reduced p := by
  cases P with
  | identity => trivial
  | affine x y => exact ⟨h.1, h.2.1⟩

theorem Point.Reduced.fits {p w : Nat} (hp : fitsIn w p) {P : Point} (h : P.Reduced p) :
    P.FitsWidth w := by
  cases P with
  | identity => trivial
  | affine x y => exact ⟨lt_trans h.1 hp, lt_trans h.2 hp⟩

/-! ### Step 4 -/

theorem chordPoint_ok_iff {l xP yP xQ p : Nat} {R : Point} :
    chordPoint l xP yP xQ p = .ok R ↔ p ≠ 0 ∧ ∃ xR yR : Nat, R = .affine xR yR ∧
      (xR : Int) = ((l : Int) * l - xP - xQ) % p ∧
      (yR : Int) = ((l : Int) * ((xP : Int) - xR) - yP) % p := by
  simp only [chordPoint, bind_ok_iff, reduce_ok_iff, pure, Except.pure, Except.ok.injEq]
  constructor
  · rintro ⟨xR, ⟨hp, hx⟩, yR, ⟨-, hy⟩, rfl⟩
    exact ⟨hp, xR, yR, rfl, hx, hy⟩
  · rintro ⟨hp, xR, yR, rfl, hx, hy⟩
    exact ⟨xR, ⟨hp, hx⟩, yR, ⟨hp, hy⟩, rfl⟩

theorem chordPoint_error {l xP yP xQ p : Nat} {c : Cause}
    (h : chordPoint l xP yP xQ p = .error c) : c = .arith ∧ p = 0 := by
  simp only [chordPoint, bind_error_iff, pure, Except.pure] at h
  rcases h with h | ⟨_, _, h | ⟨_, _, h⟩⟩
  · exact reduce_error h
  · exact reduce_error h
  · cases h

theorem chordPoint_reduced {l xP yP xQ p : Nat} {R : Point}
    (h : chordPoint l xP yP xQ p = .ok R) : R.Reduced p := by
  simp only [chordPoint, bind_ok_iff, pure, Except.pure, Except.ok.injEq] at h
  obtain ⟨xR, hx, yR, hy, rfl⟩ := h
  exact ⟨reduce_ok_lt hx, reduce_ok_lt hy⟩

/-! ### `Add` -/

@[simp] theorem add_identity_left (Q : Point) (a p : Nat) : add .identity Q a p = .ok Q := rfl

@[simp] theorem add_identity_right (P : Point) (a p : Nat) : add P .identity a p = .ok P := by
  cases P <;> rfl

theorem add_affine (xP yP xQ yQ a p : Nat) :
    add (.affine xP yP) (.affine xQ yQ) a p =
      if xP = xQ ∧ yP = yQ then
        if yP = 0 then .ok .identity
        else doublingSlope xP yP a p >>= fun l => chordPoint l xP yP xQ p
      else if xP = xQ then .ok .identity
      else chordSlope xP yP xQ yQ p >>= fun l => chordPoint l xP yP xQ p := rfl

theorem doublingSlope_ok_iff {x y a p l : Nat} :
    doublingSlope x y a p = .ok l ↔ p ≠ 0 ∧ ∃ i, inv (2 * y) p = .ok i ∧
      (l : Int) = (3 * x * x + a) * i % p := by
  simp only [doublingSlope, bind_ok_iff, reduce_ok_iff]
  constructor
  · rintro ⟨i, hi, hp, hl⟩; exact ⟨hp, i, hi, hl⟩
  · rintro ⟨hp, i, hi, hl⟩; exact ⟨i, hi, hp, hl⟩

theorem chordSlope_ok_iff {xP yP xQ yQ p l : Nat} :
    chordSlope xP yP xQ yQ p = .ok l ↔ p ≠ 0 ∧ ∃ i, inv ((xQ : Int) - xP) p = .ok i ∧
      (l : Int) = ((yQ : Int) - yP) * i % p := by
  simp only [chordSlope, bind_ok_iff, reduce_ok_iff]
  constructor
  · rintro ⟨i, hi, hp, hl⟩; exact ⟨hp, i, hi, hl⟩
  · rintro ⟨hp, i, hi, hl⟩; exact ⟨i, hi, hp, hl⟩

theorem doublingSlope_error {x y a p : Nat} {c : Cause} (h : doublingSlope x y a p = .error c) :
    c = .arith ∧ (p = 0 ∨ Int.gcd (2 * y) p ≠ 1) := by
  simp only [doublingSlope, bind_error_iff] at h
  rcases h with h | ⟨i, hi, h⟩
  · exact inv_error_iff.1 h
  · exact ⟨(reduce_error h).1, .inl (reduce_error h).2⟩

theorem chordSlope_error {xP yP xQ yQ p : Nat} {c : Cause}
    (h : chordSlope xP yP xQ yQ p = .error c) :
    c = .arith ∧ (p = 0 ∨ Int.gcd ((xQ : Int) - xP) p ≠ 1) := by
  simp only [chordSlope, bind_error_iff] at h
  rcases h with h | ⟨i, hi, h⟩
  · exact inv_error_iff.1 h
  · exact ⟨(reduce_error h).1, .inl (reduce_error h).2⟩

/-- The only fault of `Add` is `Arith` (R115). -/
theorem add_error {P Q : Point} {a p : Nat} {c : Cause} (h : add P Q a p = .error c) :
    c = .arith := by
  cases P with
  | identity => simp at h
  | affine xP yP =>
    cases Q with
    | identity => simp at h
    | affine xQ yQ =>
      rw [add_affine] at h
      split at h
      · split at h
        · cases h
        · rcases bind_error_iff.1 h with h | ⟨l, -, h⟩
          · exact (doublingSlope_error h).1
          · exact (chordPoint_error h).1
      · split at h
        · cases h
        · rcases bind_error_iff.1 h with h | ⟨l, -, h⟩
          · exact (chordSlope_error h).1
          · exact (chordPoint_error h).1

/-- A result of `Add` has coordinates below `p` unless it is a copied operand (R124 (c)). -/
theorem add_result {P Q R : Point} {a p : Nat} (h : add P Q a p = .ok R) :
    R.Reduced p ∨ (P = .identity ∧ R = Q) ∨ (Q = .identity ∧ R = P) := by
  cases P with
  | identity => exact .inr (.inl ⟨rfl, by simpa using h.symm⟩)
  | affine xP yP =>
    cases Q with
    | identity => exact .inr (.inr ⟨rfl, by simpa using h.symm⟩)
    | affine xQ yQ =>
      left
      rw [add_affine] at h
      split at h
      · split at h
        · cases h; trivial
        · obtain ⟨l, -, h⟩ := bind_ok_iff.1 h
          exact chordPoint_reduced h
      · split at h
        · cases h; trivial
        · obtain ⟨l, -, h⟩ := bind_ok_iff.1 h
          exact chordPoint_reduced h

theorem add_fits {w : Nat} {P Q R : Point} {a p : Nat} (hp : fitsIn w p) (hP : P.FitsWidth w)
    (hQ : Q.FitsWidth w) (h : add P Q a p = .ok R) : R.FitsWidth w := by
  rcases add_result h with h | ⟨-, rfl⟩ | ⟨-, rfl⟩
  · exact h.fits hp
  · exact hQ
  · exact hP

/-- `Add` of reduced points over an odd prime never faults, and its result is reduced (R115, R128). -/
theorem add_total {P Q : Point} {p : Nat} (a : Nat) (hp : p.Prime) (h2 : p ≠ 2)
    (hP : P.Reduced p) (hQ : Q.Reduced p) : ∃ R, add P Q a p = .ok R ∧ R.Reduced p := by
  have hp0 : p ≠ 0 := hp.ne_zero
  have coprime_of_not_dvd : ∀ z : Int, ¬ (p : Int) ∣ z → Int.gcd z p = 1 := by
    intro z hz
    rw [Int.gcd_comm]
    exact (Int.isCoprime_iff_gcd_eq_one).1
      ((Prime.coprime_iff_not_dvd (Nat.prime_iff_prime_int.1 hp)).2 hz)
  have finishChord : ∀ (r : Result Nat) (xP yP xQ : Nat), (∃ l, r = .ok l) →
      ∃ R, (r >>= fun l => chordPoint l xP yP xQ p) = .ok R ∧ R.Reduced p := by
    rintro _ xP yP xQ ⟨l, rfl⟩
    cases hc : chordPoint l xP yP xQ p with
    | ok R => exact ⟨R, hc, chordPoint_reduced hc⟩
    | error c => exact absurd (chordPoint_error hc).2 hp0
  cases P with
  | identity => exact ⟨Q, by simp, hQ⟩
  | affine xP yP =>
    cases Q with
    | identity => exact ⟨_, by simp, hP⟩
    | affine xQ yQ =>
      obtain ⟨hxP, hyP⟩ := hP
      obtain ⟨hxQ, hyQ⟩ := hQ
      rw [add_affine]
      split
      · split
        · exact ⟨_, rfl, trivial⟩
        · next hy =>
          apply finishChord
          cases hs : doublingSlope xP yP a p with
          | ok l => exact ⟨l, rfl⟩
          | error c =>
            refine absurd (coprime_of_not_dvd _ ?_) ((doublingSlope_error hs).2.resolve_left hp0)
            have h2y : ¬ p ∣ 2 * yP := by
              rw [hp.dvd_mul]
              rintro (h | h)
              · exact h2 ((Nat.prime_dvd_prime_iff_eq hp Nat.prime_two).1 h)
              · exact absurd (Nat.le_of_dvd (by omega) h) (by omega)
            exact_mod_cast h2y
      · split
        · exact ⟨_, rfl, trivial⟩
        · next hx =>
          apply finishChord
          cases hs : chordSlope xP yP xQ yQ p with
          | ok l => exact ⟨l, rfl⟩
          | error c =>
            refine absurd (coprime_of_not_dvd _ ?_) ((chordSlope_error hs).2.resolve_left hp0)
            rintro ⟨q, hq⟩
            have : q = 0 := by
              by_contra hq0
              rcases lt_or_gt_of_ne hq0 with h | h <;> nlinarith
            subst this
            apply hx; omega

/-! ### `Neg` -/

@[simp] theorem neg_identity (p : Nat) : neg .identity p = .ok .identity := rfl

theorem neg_affine_ok_iff {x y p : Nat} {N : Point} :
    neg (.affine x y) p = .ok N ↔
      p ≠ 0 ∧ ∃ yN : Nat, N = .affine x yN ∧ (yN : Int) = (-(y : Int)) % p := by
  simp only [neg, bind_ok_iff, reduce_ok_iff, pure, Except.pure, Except.ok.injEq]
  constructor
  · rintro ⟨yN, ⟨hp, hy⟩, rfl⟩; exact ⟨hp, yN, rfl, hy⟩
  · rintro ⟨hp, yN, rfl, hy⟩; exact ⟨yN, ⟨hp, hy⟩, rfl⟩

theorem neg_error {P : Point} {p : Nat} {c : Cause} (h : neg P p = .error c) :
    c = .arith ∧ p = 0 := by
  cases P with
  | identity => simp at h
  | affine x y =>
    simp only [neg, bind_error_iff, pure, Except.pure] at h
    rcases h with h | ⟨_, _, h⟩
    · exact reduce_error h
    · cases h

theorem neg_total {P : Point} {p : Nat} (hp : p ≠ 0) (hP : P.Reduced p) :
    ∃ N, neg P p = .ok N ∧ N.Reduced p := by
  cases P with
  | identity => exact ⟨_, rfl, trivial⟩
  | affine x y =>
    exact ⟨.affine x ((-(y : Int)) % p).toNat,
      neg_affine_ok_iff.2 ⟨hp, _, rfl, emod_toNat_cast hp _⟩, hP.1, emod_toNat_lt hp _⟩

theorem neg_fits {w : Nat} {P N : Point} {p : Nat} (hp : fitsIn w p) (hP : P.FitsWidth w)
    (h : neg P p = .ok N) : N.FitsWidth w := by
  cases P with
  | identity => cases h; trivial
  | affine x y =>
    obtain ⟨h0, yN, rfl, hy⟩ := neg_affine_ok_iff.1 h
    have := Int.emod_lt_of_pos (-(y : Int)) (show (0 : Int) < p by omega)
    have : yN < p := by omega
    exact ⟨hP.1, lt_trans this hp⟩

/-! ### `Mul` -/

theorem mulLoop_zero_scalar (a p fuel : Nat) (R A : Point) : mulLoop a p fuel R A 0 = .ok R := by
  cases fuel <;> rfl

/-- One iteration: accumulate, double, shift (R136). -/
theorem mulLoop_succ (a p fuel : Nat) (R A : Point) {K : Nat} (hK : K ≠ 0) :
    mulLoop a p (fuel + 1) R A K =
      (if K % 2 = 1 then add R A a p else .ok R) >>= fun R' =>
        add A A a p >>= fun A' => mulLoop a p fuel R' A' (K / 2) := by
  rw [mulLoop, if_neg hK]
  split <;> rfl

@[simp] theorem mul_zero (P : Point) (a p : Nat) : mul 0 P a p = .ok .identity := by simp [mul]

@[simp] theorem mul_identity (k a p : Nat) : mul k .identity a p = .ok .identity := by simp [mul]

theorem mul_affine {k : Nat} (hk : k ≠ 0) (x y a p : Nat) :
    mul k (.affine x y) a p = mulLoop a p (Nat.log2 k + 1) .identity (.affine x y) k := by
  simp [mul, hk]

/-- An induction over the loop: a property that every `Add` keeps is kept by the loop. -/
theorem mulLoop_keeps {a p : Nat} (I : Point → Prop)
    (hadd : ∀ P Q R, I P → I Q → add P Q a p = .ok R → I R) (fuel : Nat) :
    ∀ (R A : Point) (K : Nat) (S : Point), I R → I A → mulLoop a p fuel R A K = .ok S → I S := by
  induction fuel with
  | zero => intro R A K S hR _ h; cases h; exact hR
  | succ fuel ih =>
    intro R A K S hR hA h
    by_cases hK : K = 0
    · rw [hK, mulLoop_zero_scalar] at h; cases h; exact hR
    rw [mulLoop_succ a p fuel R A hK] at h
    obtain ⟨R', hR', h⟩ := bind_ok_iff.1 h
    obtain ⟨A', hA', h⟩ := bind_ok_iff.1 h
    refine ih R' A' _ S ?_ (hadd _ _ _ hA hA hA') h
    split at hR'
    · exact hadd _ _ _ hR hA hR'
    · cases hR'; exact hR

theorem mul_keeps {a p : Nat} (I : Point → Prop) (h0 : I .identity)
    (hadd : ∀ P Q R, I P → I Q → add P Q a p = .ok R → I R) {k : Nat} {P S : Point} (hP : I P)
    (h : mul k P a p = .ok S) : I S := by
  unfold mul at h
  split at h
  · cases h; exact h0
  · exact mulLoop_keeps I hadd _ _ _ _ _ h0 hP h

theorem mulLoop_error {a p : Nat} (fuel : Nat) :
    ∀ (R A : Point) (K : Nat) (c : Cause), mulLoop a p fuel R A K = .error c → c = .arith := by
  induction fuel with
  | zero => intro R A K c h; cases h
  | succ fuel ih =>
    intro R A K c h
    by_cases hK : K = 0
    · rw [hK, mulLoop_zero_scalar] at h; cases h
    rw [mulLoop_succ a p fuel R A hK] at h
    rcases bind_error_iff.1 h with h | ⟨R', -, h⟩
    · split at h
      · exact add_error h
      · cases h
    · rcases bind_error_iff.1 h with h | ⟨A', -, h⟩
      · exact add_error h
      · exact ih _ _ _ _ h

/-- The only fault of `Mul` is `Arith` (R115). -/
theorem mul_error {k : Nat} {P : Point} {a p : Nat} {c : Cause} (h : mul k P a p = .error c) :
    c = .arith := by
  unfold mul at h
  split at h
  · cases h
  · exact mulLoop_error _ _ _ _ _ h

theorem mulLoop_total {p : Nat} (a : Nat) (hp : p.Prime) (h2 : p ≠ 2) (fuel : Nat) :
    ∀ (R A : Point) (K : Nat), R.Reduced p → A.Reduced p →
      ∃ S, mulLoop a p fuel R A K = .ok S ∧ S.Reduced p := by
  induction fuel with
  | zero => intro R A K hR _; exact ⟨R, rfl, hR⟩
  | succ fuel ih =>
    intro R A K hR hA
    by_cases hK : K = 0
    · exact ⟨R, by rw [hK, mulLoop_zero_scalar], hR⟩
    rw [mulLoop_succ a p fuel R A hK]
    obtain ⟨A', hA', hA'r⟩ := add_total a hp h2 hA hA
    have : ∃ R', (if K % 2 = 1 then add R A a p else .ok R) = .ok R' ∧ R'.Reduced p := by
      split
      · exact add_total a hp h2 hR hA
      · exact ⟨R, rfl, hR⟩
    obtain ⟨R', hR', hR'r⟩ := this
    obtain ⟨S, hS, hSr⟩ := ih R' A' (K / 2) hR'r hA'r
    exact ⟨S, bind_ok_iff.2 ⟨R', hR', bind_ok_iff.2 ⟨A', hA', hS⟩⟩, hSr⟩

/-- `Mul` of a reduced point over an odd prime never faults, and its result is reduced (R115, R136). -/
theorem mul_total {p : Nat} (a : Nat) (hp : p.Prime) (h2 : p ≠ 2) (k : Nat) {P : Point}
    (hP : P.Reduced p) : ∃ R, mul k P a p = .ok R ∧ R.Reduced p := by
  unfold mul
  split
  · exact ⟨_, rfl, trivial⟩
  · exact mulLoop_total a hp h2 _ _ _ _ trivial hP

theorem mul_fits {w : Nat} {k : Nat} {P R : Point} {a p : Nat} (hp : fitsIn w p)
    (hP : P.FitsWidth w) (h : mul k P a p = .ok R) : R.FitsWidth w :=
  mul_keeps (Point.FitsWidth w) trivial (fun _ _ _ h1 h2 h3 => add_fits hp h1 h2 h3) hP h

end Sys2Proof.Machine
end

