-- ==== Sys2Proof/Laws/Decode.lean ====
section
/-! SUPPORT. Laws/Decode: the match-and-mask table and the word value in arithmetic form, for `omega`
(spec/30_encoding.md R92, R94). -/

namespace Sys2Proof

/-- A mask of the opcode byte and the low `n` bits picks those out. -/
theorem and_byte_and_low (x n : Nat) (hx : x < 2 ^ 32) (hn : n ≤ 24) :
    x &&& (2 ^ 24 * 255 + (2 ^ n - 1)) = 2 ^ 24 * (x / 2 ^ 24) + x % 2 ^ n := by
  have hlow : 2 ^ n - 1 < 2 ^ 24 := by
    have : 2 ^ n ≤ 2 ^ 24 := Nat.pow_le_pow_right (by omega) hn
    have := Nat.two_pow_pos n
    omega
  have hmod : x % 2 ^ n < 2 ^ 24 :=
    lt_of_lt_of_le (Nat.mod_lt _ (Nat.two_pow_pos n)) (Nat.pow_le_pow_right (by omega) hn)
  apply Nat.eq_of_testBit_eq
  intro j
  rw [Nat.testBit_and, Nat.testBit_two_pow_mul_add _ hlow, Nat.testBit_two_pow_mul_add _ hmod,
    Nat.testBit_mod_two_pow, Nat.testBit_two_pow_sub_one, Nat.testBit_div_two_pow]
  by_cases hj : j < 24
  · simp [hj, Bool.and_comm]
  · rw [if_neg hj, if_neg hj, show j - 24 + 24 = j by omega,
      show (255 : Nat) = 2 ^ 8 - 1 by norm_num, Nat.testBit_two_pow_sub_one]
    by_cases h8 : j < 32
    · simp [show j - 24 < 8 by omega]
    · have : x.testBit j = false :=
        Nat.testBit_lt_two_pow (lt_of_lt_of_le hx (Nat.pow_le_pow_right (by omega) (by omega)))
      simp [this]

/-- `(c AND mask) = match` for the masks of R94: the opcode byte, and the bits that must be 0. -/
theorem and_mask_eq_iff (c : CmdWord) (op n : Nat) (hop : op < 256) (hn : n ≤ 24) :
    c &&& BitVec.ofNat 32 (2 ^ 24 * 255 + (2 ^ n - 1)) = BitVec.ofNat 32 (2 ^ 24 * op) ↔
      opcodeField c = op ∧ c.toNat % 2 ^ n = 0 := by
  have hpow : 2 ^ n ≤ 2 ^ 24 := Nat.pow_le_pow_right (by omega) hn
  have h1 : 2 ^ 24 * 255 + (2 ^ n - 1) < 2 ^ 32 := by omega
  have h2 : 2 ^ 24 * op < 2 ^ 32 := by omega
  have hmod : c.toNat % 2 ^ n < 2 ^ 24 := lt_of_lt_of_le (Nat.mod_lt _ (Nat.two_pow_pos n)) hpow
  rw [← BitVec.toNat_inj, BitVec.toNat_and, BitVec.toNat_ofNat, BitVec.toNat_ofNat,
    Nat.mod_eq_of_lt h1, and_byte_and_low _ _ c.isLt hn, Nat.mod_eq_of_lt h2]
  unfold opcodeField
  omega

/-- R94 in arithmetic form, for every row of the table. -/
theorem OpcodeRow.selects_iff (c : CmdWord) {row : OpcodeRow} (h : row ∈ opcodeRows) :
    row.selects c = true ↔
      opcodeField c = row.value.toNat / 2 ^ 24 ∧ c.toNat % (row.mask.toNat % 2 ^ 24 + 1) = 0 := by
  have m15 := fun op hop => and_mask_eq_iff c op 15 hop (by omega)
  have m18 := fun op hop => and_mask_eq_iff c op 18 hop (by omega)
  have m9 := fun op hop => and_mask_eq_iff c op 9 hop (by omega)
  have m12 := fun op hop => and_mask_eq_iff c op 12 hop (by omega)
  simp only [opcodeRows, List.mem_cons, List.not_mem_nil, or_false] at h
  rcases h with rfl | rfl | rfl | rfl | rfl | rfl | rfl | rfl | rfl | rfl <;>
    simp only [OpcodeRow.selects, beq_iff_eq]
  · exact m15 0x01 (by omega)
  · exact m15 0x10 (by omega)
  · exact m18 0x11 (by omega)
  · exact m15 0x20 (by omega)
  · exact m18 0x30 (by omega)
  · exact m9 0x31 (by omega)
  · exact m12 0x32 (by omega)
  · exact m18 0x40 (by omega)
  · exact m12 0x41 (by omega)
  · exact m12 0x42 (by omega)

/-- The assigned opcodes differ (R93, R94). -/
theorem opcodes_pairwise_ne :
    opcodeRows.Pairwise (fun x y => x.value.toNat / 2 ^ 24 ≠ y.value.toNat / 2 ^ 24) := by decide

/-- The word value of R92 is below `2^32` and not truncated. -/
theorem packWord_toNat (op : Nat) (hop : op < 256) (r0 r1 r2 r3 r4 : Fin 8) :
    (packWord op r0 r1 r2 r3 r4).toNat = op * 2 ^ 24 + r0.val * 2 ^ 21 + r1.val * 2 ^ 18
      + r2.val * 2 ^ 15 + r3.val * 2 ^ 12 + r4.val * 2 ^ 9 := by
  unfold packWord
  rw [BitVec.toNat_ofNat, Nat.mod_eq_of_lt]
  omega

theorem selectField_eq_iff (lo : Nat) (c : CmdWord) (r : Fin 8) :
    selectField lo c = r ↔ c.toNat / 2 ^ lo % 8 = r.val := by
  simp [selectField, Fin.ext_iff, Fin.ofNat]

section fields
variable (op : Nat) (hop : op < 256) (r0 r1 r2 r3 r4 : Fin 8)
include hop

theorem opcodeField_packWord : opcodeField (packWord op r0 r1 r2 r3 r4) = op := by
  unfold opcodeField; rw [packWord_toNat op hop]; omega

theorem f0_packWord : f0 (packWord op r0 r1 r2 r3 r4) = r0 := by
  unfold f0; rw [selectField_eq_iff, packWord_toNat op hop]; omega

theorem f1_packWord : f1 (packWord op r0 r1 r2 r3 r4) = r1 := by
  unfold f1; rw [selectField_eq_iff, packWord_toNat op hop]; omega

theorem f2_packWord : f2 (packWord op r0 r1 r2 r3 r4) = r2 := by
  unfold f2; rw [selectField_eq_iff, packWord_toNat op hop]; omega

theorem f3_packWord : f3 (packWord op r0 r1 r2 r3 r4) = r3 := by
  unfold f3; rw [selectField_eq_iff, packWord_toNat op hop]; omega

theorem f4_packWord : f4 (packWord op r0 r1 r2 r3 r4) = r4 := by
  unfold f4; rw [selectField_eq_iff, packWord_toNat op hop]; omega

end fields

end Sys2Proof
end

