-- ==== Sys2Proof/Laws/State.lean ====
section
/-! SUPPORT. Laws/State: every field after every update operation, so that no proof unfolds a record
update; and the accessors of the two register files. -/

namespace Sys2Proof.Machine
namespace State

variable (s : State)

/-! ### `dropHidden` -/

@[simp] theorem sc_dropHidden : (s.dropHidden).sc = s.sc := rfl
@[simp] theorem pt_dropHidden : (s.dropHidden).pt = s.pt := rfl
@[simp] theorem curveP_dropHidden : (s.dropHidden).curveP = s.curveP := rfl
@[simp] theorem curveA_dropHidden : (s.dropHidden).curveA = s.curveA := rfl
@[simp] theorem curveB_dropHidden : (s.dropHidden).curveB = s.curveB := rfl
@[simp] theorem curveN_dropHidden : (s.dropHidden).curveN = s.curveN := rfl
@[simp] theorem g_dropHidden : (s.dropHidden).g = s.g := rfl
@[simp] theorem cmd_dropHidden : (s.dropHidden).cmd = s.cmd := rfl
@[simp] theorem status_dropHidden : (s.dropHidden).status = s.status := rfl
@[simp] theorem errcode_dropHidden : (s.dropHidden).errcode = s.errcode := rfl
@[simp] theorem errcmd_dropHidden : (s.dropHidden).errcmd = s.errcmd := rfl
@[simp] theorem ctrl_dropHidden : (s.dropHidden).ctrl = s.ctrl := rfl
@[simp] theorem retryLimit_dropHidden : (s.dropHidden).retryLimit = s.retryLimit := rfl
@[simp] theorem retryCount_dropHidden : (s.dropHidden).retryCount = s.retryCount := rfl
@[simp] theorem attempts_dropHidden : (s.dropHidden).attempts = 0 := rfl
@[simp] theorem rndReq_dropHidden : (s.dropHidden).rndReq = none := rfl
@[simp] theorem rstN_dropHidden : (s.dropHidden).rstN = s.rstN := rfl
@[simp] theorem hRdata_dropHidden : (s.dropHidden).hRdata = s.hRdata := rfl
@[simp] theorem inputs_dropHidden : (s.dropHidden).inputs = s.inputs := rfl
@[simp] theorem entropy_dropHidden : (s.dropHidden).entropy = s.entropy := rfl
@[simp] theorem scalar_dropHidden (j : ScReg) : (s.dropHidden).scalar j = s.scalar j := rfl
@[simp] theorem pointReg_dropHidden (j : PtReg) : (s.dropHidden).pointReg j = s.pointReg j := rfl
@[simp] theorem point_dropHidden (j : PtReg) : (s.dropHidden).point j = s.point j := rfl
@[simp] theorem basePoint_dropHidden : (s.dropHidden).basePoint = s.basePoint := rfl

/-! ### `accept` -/

@[simp] theorem sc_accept (c : CmdWord) : (s.accept c).sc = s.sc := rfl
@[simp] theorem pt_accept (c : CmdWord) : (s.accept c).pt = s.pt := rfl
@[simp] theorem curveP_accept (c : CmdWord) : (s.accept c).curveP = s.curveP := rfl
@[simp] theorem curveA_accept (c : CmdWord) : (s.accept c).curveA = s.curveA := rfl
@[simp] theorem curveB_accept (c : CmdWord) : (s.accept c).curveB = s.curveB := rfl
@[simp] theorem curveN_accept (c : CmdWord) : (s.accept c).curveN = s.curveN := rfl
@[simp] theorem g_accept (c : CmdWord) : (s.accept c).g = s.g := rfl
@[simp] theorem cmd_accept (c : CmdWord) : (s.accept c).cmd = c := rfl
@[simp] theorem status_accept (c : CmdWord) : (s.accept c).status = s.status.accepted := rfl
@[simp] theorem errcode_accept (c : CmdWord) : (s.accept c).errcode = s.errcode := rfl
@[simp] theorem errcmd_accept (c : CmdWord) : (s.accept c).errcmd = s.errcmd := rfl
@[simp] theorem ctrl_accept (c : CmdWord) : (s.accept c).ctrl = s.ctrl := rfl
@[simp] theorem retryLimit_accept (c : CmdWord) : (s.accept c).retryLimit = s.retryLimit := rfl
@[simp] theorem retryCount_accept (c : CmdWord) : (s.accept c).retryCount = s.retryCount := rfl
@[simp] theorem attempts_accept (c : CmdWord) : (s.accept c).attempts = 0 := rfl
@[simp] theorem rndReq_accept (c : CmdWord) : (s.accept c).rndReq = none := rfl
@[simp] theorem rstN_accept (c : CmdWord) : (s.accept c).rstN = s.rstN := rfl
@[simp] theorem hRdata_accept (c : CmdWord) : (s.accept c).hRdata = s.hRdata := rfl
@[simp] theorem inputs_accept (c : CmdWord) : (s.accept c).inputs = s.inputs := rfl
@[simp] theorem entropy_accept (c : CmdWord) : (s.accept c).entropy = s.entropy := rfl
@[simp] theorem scalar_accept (c : CmdWord) (j : ScReg) : (s.accept c).scalar j = s.scalar j := rfl
@[simp] theorem pointReg_accept (c : CmdWord) (j : PtReg) : (s.accept c).pointReg j = s.pointReg j := rfl
@[simp] theorem point_accept (c : CmdWord) (j : PtReg) : (s.accept c).point j = s.point j := rfl
@[simp] theorem basePoint_accept (c : CmdWord) : (s.accept c).basePoint = s.basePoint := rfl

/-! ### `commit` -/

@[simp] theorem sc_commit : (s.commit).sc = s.sc := rfl
@[simp] theorem pt_commit : (s.commit).pt = s.pt := rfl
@[simp] theorem curveP_commit : (s.commit).curveP = s.curveP := rfl
@[simp] theorem curveA_commit : (s.commit).curveA = s.curveA := rfl
@[simp] theorem curveB_commit : (s.commit).curveB = s.curveB := rfl
@[simp] theorem curveN_commit : (s.commit).curveN = s.curveN := rfl
@[simp] theorem g_commit : (s.commit).g = s.g := rfl
@[simp] theorem cmd_commit : (s.commit).cmd = s.cmd := rfl
@[simp] theorem status_commit : (s.commit).status = s.status.committed := rfl
@[simp] theorem errcode_commit : (s.commit).errcode = s.errcode := rfl
@[simp] theorem errcmd_commit : (s.commit).errcmd = s.errcmd := rfl
@[simp] theorem ctrl_commit : (s.commit).ctrl = s.ctrl := rfl
@[simp] theorem retryLimit_commit : (s.commit).retryLimit = s.retryLimit := rfl
@[simp] theorem retryCount_commit : (s.commit).retryCount = s.retryCount := rfl
@[simp] theorem attempts_commit : (s.commit).attempts = 0 := rfl
@[simp] theorem rndReq_commit : (s.commit).rndReq = none := rfl
@[simp] theorem rstN_commit : (s.commit).rstN = s.rstN := rfl
@[simp] theorem hRdata_commit : (s.commit).hRdata = s.hRdata := rfl
@[simp] theorem inputs_commit : (s.commit).inputs = s.inputs := rfl
@[simp] theorem entropy_commit : (s.commit).entropy = s.entropy := rfl
@[simp] theorem scalar_commit (j : ScReg) : (s.commit).scalar j = s.scalar j := rfl
@[simp] theorem pointReg_commit (j : PtReg) : (s.commit).pointReg j = s.pointReg j := rfl
@[simp] theorem point_commit (j : PtReg) : (s.commit).point j = s.point j := rfl
@[simp] theorem basePoint_commit : (s.commit).basePoint = s.basePoint := rfl

/-! ### `takeFault` -/

@[simp] theorem sc_takeFault (c : Cause) : (s.takeFault c).sc = s.sc := rfl
@[simp] theorem pt_takeFault (c : Cause) : (s.takeFault c).pt = s.pt := rfl
@[simp] theorem curveP_takeFault (c : Cause) : (s.takeFault c).curveP = s.curveP := rfl
@[simp] theorem curveA_takeFault (c : Cause) : (s.takeFault c).curveA = s.curveA := rfl
@[simp] theorem curveB_takeFault (c : Cause) : (s.takeFault c).curveB = s.curveB := rfl
@[simp] theorem curveN_takeFault (c : Cause) : (s.takeFault c).curveN = s.curveN := rfl
@[simp] theorem g_takeFault (c : Cause) : (s.takeFault c).g = s.g := rfl
@[simp] theorem cmd_takeFault (c : Cause) : (s.takeFault c).cmd = s.cmd := rfl
@[simp] theorem status_takeFault (c : Cause) : (s.takeFault c).status = s.status.faulted := rfl
@[simp] theorem errcode_takeFault (c : Cause) : (s.takeFault c).errcode = c.code := rfl
@[simp] theorem errcmd_takeFault (c : Cause) : (s.takeFault c).errcmd = s.cmd := rfl
@[simp] theorem ctrl_takeFault (c : Cause) : (s.takeFault c).ctrl = s.ctrl := rfl
@[simp] theorem retryLimit_takeFault (c : Cause) : (s.takeFault c).retryLimit = s.retryLimit := rfl
@[simp] theorem retryCount_takeFault (c : Cause) : (s.takeFault c).retryCount = s.retryCount := rfl
@[simp] theorem attempts_takeFault (c : Cause) : (s.takeFault c).attempts = 0 := rfl
@[simp] theorem rndReq_takeFault (c : Cause) : (s.takeFault c).rndReq = none := rfl
@[simp] theorem rstN_takeFault (c : Cause) : (s.takeFault c).rstN = s.rstN := rfl
@[simp] theorem hRdata_takeFault (c : Cause) : (s.takeFault c).hRdata = s.hRdata := rfl
@[simp] theorem inputs_takeFault (c : Cause) : (s.takeFault c).inputs = s.inputs := rfl
@[simp] theorem entropy_takeFault (c : Cause) : (s.takeFault c).entropy = s.entropy := rfl
@[simp] theorem scalar_takeFault (c : Cause) (j : ScReg) : (s.takeFault c).scalar j = s.scalar j := rfl
@[simp] theorem pointReg_takeFault (c : Cause) (j : PtReg) : (s.takeFault c).pointReg j = s.pointReg j := rfl
@[simp] theorem point_takeFault (c : Cause) (j : PtReg) : (s.takeFault c).point j = s.point j := rfl
@[simp] theorem basePoint_takeFault (c : Cause) : (s.takeFault c).basePoint = s.basePoint := rfl

/-! ### `acknowledge` -/

@[simp] theorem sc_acknowledge (v : Nat) : (s.acknowledge v).sc = s.sc := rfl
@[simp] theorem pt_acknowledge (v : Nat) : (s.acknowledge v).pt = s.pt := rfl
@[simp] theorem curveP_acknowledge (v : Nat) : (s.acknowledge v).curveP = s.curveP := rfl
@[simp] theorem curveA_acknowledge (v : Nat) : (s.acknowledge v).curveA = s.curveA := rfl
@[simp] theorem curveB_acknowledge (v : Nat) : (s.acknowledge v).curveB = s.curveB := rfl
@[simp] theorem curveN_acknowledge (v : Nat) : (s.acknowledge v).curveN = s.curveN := rfl
@[simp] theorem g_acknowledge (v : Nat) : (s.acknowledge v).g = s.g := rfl
@[simp] theorem cmd_acknowledge (v : Nat) : (s.acknowledge v).cmd = s.cmd := rfl
@[simp] theorem status_acknowledge (v : Nat) : (s.acknowledge v).status = s.status.writeOneToClear v := rfl
@[simp] theorem errcode_acknowledge (v : Nat) : (s.acknowledge v).errcode = s.errcode := rfl
@[simp] theorem errcmd_acknowledge (v : Nat) : (s.acknowledge v).errcmd = s.errcmd := rfl
@[simp] theorem ctrl_acknowledge (v : Nat) : (s.acknowledge v).ctrl = s.ctrl := rfl
@[simp] theorem retryLimit_acknowledge (v : Nat) : (s.acknowledge v).retryLimit = s.retryLimit := rfl
@[simp] theorem retryCount_acknowledge (v : Nat) : (s.acknowledge v).retryCount = s.retryCount := rfl
@[simp] theorem attempts_acknowledge (v : Nat) : (s.acknowledge v).attempts = s.attempts := rfl
@[simp] theorem rndReq_acknowledge (v : Nat) : (s.acknowledge v).rndReq = s.rndReq := rfl
@[simp] theorem rstN_acknowledge (v : Nat) : (s.acknowledge v).rstN = s.rstN := rfl
@[simp] theorem hRdata_acknowledge (v : Nat) : (s.acknowledge v).hRdata = s.hRdata := rfl
@[simp] theorem inputs_acknowledge (v : Nat) : (s.acknowledge v).inputs = s.inputs := rfl
@[simp] theorem entropy_acknowledge (v : Nat) : (s.acknowledge v).entropy = s.entropy := rfl
@[simp] theorem scalar_acknowledge (v : Nat) (j : ScReg) : (s.acknowledge v).scalar j = s.scalar j := rfl
@[simp] theorem pointReg_acknowledge (v : Nat) (j : PtReg) : (s.acknowledge v).pointReg j = s.pointReg j := rfl
@[simp] theorem point_acknowledge (v : Nat) (j : PtReg) : (s.acknowledge v).point j = s.point j := rfl
@[simp] theorem basePoint_acknowledge (v : Nat) : (s.acknowledge v).basePoint = s.basePoint := rfl

/-! ### `publishAttempts` -/

@[simp] theorem sc_publishAttempts : (s.publishAttempts).sc = s.sc := rfl
@[simp] theorem pt_publishAttempts : (s.publishAttempts).pt = s.pt := rfl
@[simp] theorem curveP_publishAttempts : (s.publishAttempts).curveP = s.curveP := rfl
@[simp] theorem curveA_publishAttempts : (s.publishAttempts).curveA = s.curveA := rfl
@[simp] theorem curveB_publishAttempts : (s.publishAttempts).curveB = s.curveB := rfl
@[simp] theorem curveN_publishAttempts : (s.publishAttempts).curveN = s.curveN := rfl
@[simp] theorem g_publishAttempts : (s.publishAttempts).g = s.g := rfl
@[simp] theorem cmd_publishAttempts : (s.publishAttempts).cmd = s.cmd := rfl
@[simp] theorem status_publishAttempts : (s.publishAttempts).status = s.status := rfl
@[simp] theorem errcode_publishAttempts : (s.publishAttempts).errcode = s.errcode := rfl
@[simp] theorem errcmd_publishAttempts : (s.publishAttempts).errcmd = s.errcmd := rfl
@[simp] theorem ctrl_publishAttempts : (s.publishAttempts).ctrl = s.ctrl := rfl
@[simp] theorem retryLimit_publishAttempts : (s.publishAttempts).retryLimit = s.retryLimit := rfl
@[simp] theorem retryCount_publishAttempts : (s.publishAttempts).retryCount = BitVec.ofNat 16 (min s.attempts 0xFFFF) := rfl
@[simp] theorem attempts_publishAttempts : (s.publishAttempts).attempts = s.attempts := rfl
@[simp] theorem rndReq_publishAttempts : (s.publishAttempts).rndReq = s.rndReq := rfl
@[simp] theorem rstN_publishAttempts : (s.publishAttempts).rstN = s.rstN := rfl
@[simp] theorem hRdata_publishAttempts : (s.publishAttempts).hRdata = s.hRdata := rfl
@[simp] theorem inputs_publishAttempts : (s.publishAttempts).inputs = s.inputs := rfl
@[simp] theorem entropy_publishAttempts : (s.publishAttempts).entropy = s.entropy := rfl
@[simp] theorem scalar_publishAttempts (j : ScReg) : (s.publishAttempts).scalar j = s.scalar j := rfl
@[simp] theorem pointReg_publishAttempts (j : PtReg) : (s.publishAttempts).pointReg j = s.pointReg j := rfl
@[simp] theorem point_publishAttempts (j : PtReg) : (s.publishAttempts).point j = s.point j := rfl
@[simp] theorem basePoint_publishAttempts : (s.publishAttempts).basePoint = s.basePoint := rfl

/-! ### `requestDraw` -/

@[simp] theorem sc_requestDraw (b : Nat) : (s.requestDraw b).sc = s.sc := rfl
@[simp] theorem pt_requestDraw (b : Nat) : (s.requestDraw b).pt = s.pt := rfl
@[simp] theorem curveP_requestDraw (b : Nat) : (s.requestDraw b).curveP = s.curveP := rfl
@[simp] theorem curveA_requestDraw (b : Nat) : (s.requestDraw b).curveA = s.curveA := rfl
@[simp] theorem curveB_requestDraw (b : Nat) : (s.requestDraw b).curveB = s.curveB := rfl
@[simp] theorem curveN_requestDraw (b : Nat) : (s.requestDraw b).curveN = s.curveN := rfl
@[simp] theorem g_requestDraw (b : Nat) : (s.requestDraw b).g = s.g := rfl
@[simp] theorem cmd_requestDraw (b : Nat) : (s.requestDraw b).cmd = s.cmd := rfl
@[simp] theorem status_requestDraw (b : Nat) : (s.requestDraw b).status = s.status := rfl
@[simp] theorem errcode_requestDraw (b : Nat) : (s.requestDraw b).errcode = s.errcode := rfl
@[simp] theorem errcmd_requestDraw (b : Nat) : (s.requestDraw b).errcmd = s.errcmd := rfl
@[simp] theorem ctrl_requestDraw (b : Nat) : (s.requestDraw b).ctrl = s.ctrl := rfl
@[simp] theorem retryLimit_requestDraw (b : Nat) : (s.requestDraw b).retryLimit = s.retryLimit := rfl
@[simp] theorem retryCount_requestDraw (b : Nat) : (s.requestDraw b).retryCount = s.retryCount := rfl
@[simp] theorem attempts_requestDraw (b : Nat) : (s.requestDraw b).attempts = s.attempts + 1 := rfl
@[simp] theorem rndReq_requestDraw (b : Nat) : (s.requestDraw b).rndReq = some b := rfl
@[simp] theorem rstN_requestDraw (b : Nat) : (s.requestDraw b).rstN = s.rstN := rfl
@[simp] theorem hRdata_requestDraw (b : Nat) : (s.requestDraw b).hRdata = s.hRdata := rfl
@[simp] theorem inputs_requestDraw (b : Nat) : (s.requestDraw b).inputs = s.inputs := rfl
@[simp] theorem entropy_requestDraw (b : Nat) : (s.requestDraw b).entropy = s.entropy := rfl
@[simp] theorem scalar_requestDraw (b : Nat) (j : ScReg) : (s.requestDraw b).scalar j = s.scalar j := rfl
@[simp] theorem pointReg_requestDraw (b : Nat) (j : PtReg) : (s.requestDraw b).pointReg j = s.pointReg j := rfl
@[simp] theorem point_requestDraw (b : Nat) (j : PtReg) : (s.requestDraw b).point j = s.point j := rfl
@[simp] theorem basePoint_requestDraw (b : Nat) : (s.requestDraw b).basePoint = s.basePoint := rfl

/-! ### `takeAnswer` -/

@[simp] theorem sc_takeAnswer (l : List Nat) : (s.takeAnswer l).sc = s.sc := rfl
@[simp] theorem pt_takeAnswer (l : List Nat) : (s.takeAnswer l).pt = s.pt := rfl
@[simp] theorem curveP_takeAnswer (l : List Nat) : (s.takeAnswer l).curveP = s.curveP := rfl
@[simp] theorem curveA_takeAnswer (l : List Nat) : (s.takeAnswer l).curveA = s.curveA := rfl
@[simp] theorem curveB_takeAnswer (l : List Nat) : (s.takeAnswer l).curveB = s.curveB := rfl
@[simp] theorem curveN_takeAnswer (l : List Nat) : (s.takeAnswer l).curveN = s.curveN := rfl
@[simp] theorem g_takeAnswer (l : List Nat) : (s.takeAnswer l).g = s.g := rfl
@[simp] theorem cmd_takeAnswer (l : List Nat) : (s.takeAnswer l).cmd = s.cmd := rfl
@[simp] theorem status_takeAnswer (l : List Nat) : (s.takeAnswer l).status = s.status := rfl
@[simp] theorem errcode_takeAnswer (l : List Nat) : (s.takeAnswer l).errcode = s.errcode := rfl
@[simp] theorem errcmd_takeAnswer (l : List Nat) : (s.takeAnswer l).errcmd = s.errcmd := rfl
@[simp] theorem ctrl_takeAnswer (l : List Nat) : (s.takeAnswer l).ctrl = s.ctrl := rfl
@[simp] theorem retryLimit_takeAnswer (l : List Nat) : (s.takeAnswer l).retryLimit = s.retryLimit := rfl
@[simp] theorem retryCount_takeAnswer (l : List Nat) : (s.takeAnswer l).retryCount = s.retryCount := rfl
@[simp] theorem attempts_takeAnswer (l : List Nat) : (s.takeAnswer l).attempts = s.attempts := rfl
@[simp] theorem rndReq_takeAnswer (l : List Nat) : (s.takeAnswer l).rndReq = none := rfl
@[simp] theorem rstN_takeAnswer (l : List Nat) : (s.takeAnswer l).rstN = s.rstN := rfl
@[simp] theorem hRdata_takeAnswer (l : List Nat) : (s.takeAnswer l).hRdata = s.hRdata := rfl
@[simp] theorem inputs_takeAnswer (l : List Nat) : (s.takeAnswer l).inputs = s.inputs := rfl
@[simp] theorem entropy_takeAnswer (l : List Nat) : (s.takeAnswer l).entropy = l := rfl
@[simp] theorem scalar_takeAnswer (l : List Nat) (j : ScReg) : (s.takeAnswer l).scalar j = s.scalar j := rfl
@[simp] theorem pointReg_takeAnswer (l : List Nat) (j : PtReg) : (s.takeAnswer l).pointReg j = s.pointReg j := rfl
@[simp] theorem point_takeAnswer (l : List Nat) (j : PtReg) : (s.takeAnswer l).point j = s.point j := rfl
@[simp] theorem basePoint_takeAnswer (l : List Nat) : (s.takeAnswer l).basePoint = s.basePoint := rfl

/-! ### `dropWrite` -/

@[simp] theorem sc_dropWrite : (s.dropWrite).sc = s.sc := rfl
@[simp] theorem pt_dropWrite : (s.dropWrite).pt = s.pt := rfl
@[simp] theorem curveP_dropWrite : (s.dropWrite).curveP = s.curveP := rfl
@[simp] theorem curveA_dropWrite : (s.dropWrite).curveA = s.curveA := rfl
@[simp] theorem curveB_dropWrite : (s.dropWrite).curveB = s.curveB := rfl
@[simp] theorem curveN_dropWrite : (s.dropWrite).curveN = s.curveN := rfl
@[simp] theorem g_dropWrite : (s.dropWrite).g = s.g := rfl
@[simp] theorem cmd_dropWrite : (s.dropWrite).cmd = s.cmd := rfl
@[simp] theorem status_dropWrite : (s.dropWrite).status = s.status.hostError := rfl
@[simp] theorem errcode_dropWrite : (s.dropWrite).errcode = s.errcode := rfl
@[simp] theorem errcmd_dropWrite : (s.dropWrite).errcmd = s.errcmd := rfl
@[simp] theorem ctrl_dropWrite : (s.dropWrite).ctrl = s.ctrl := rfl
@[simp] theorem retryLimit_dropWrite : (s.dropWrite).retryLimit = s.retryLimit := rfl
@[simp] theorem retryCount_dropWrite : (s.dropWrite).retryCount = s.retryCount := rfl
@[simp] theorem attempts_dropWrite : (s.dropWrite).attempts = s.attempts := rfl
@[simp] theorem rndReq_dropWrite : (s.dropWrite).rndReq = s.rndReq := rfl
@[simp] theorem rstN_dropWrite : (s.dropWrite).rstN = s.rstN := rfl
@[simp] theorem hRdata_dropWrite : (s.dropWrite).hRdata = s.hRdata := rfl
@[simp] theorem inputs_dropWrite : (s.dropWrite).inputs = s.inputs := rfl
@[simp] theorem entropy_dropWrite : (s.dropWrite).entropy = s.entropy := rfl
@[simp] theorem scalar_dropWrite (j : ScReg) : (s.dropWrite).scalar j = s.scalar j := rfl
@[simp] theorem pointReg_dropWrite (j : PtReg) : (s.dropWrite).pointReg j = s.pointReg j := rfl
@[simp] theorem point_dropWrite (j : PtReg) : (s.dropWrite).point j = s.point j := rfl
@[simp] theorem basePoint_dropWrite : (s.dropWrite).basePoint = s.basePoint := rfl

/-! ### `writeVerdict` -/

@[simp] theorem sc_writeVerdict (v : Verdict) : (writeVerdict v s).sc = s.sc := rfl
@[simp] theorem pt_writeVerdict (v : Verdict) : (writeVerdict v s).pt = s.pt := rfl
@[simp] theorem curveP_writeVerdict (v : Verdict) : (writeVerdict v s).curveP = s.curveP := rfl
@[simp] theorem curveA_writeVerdict (v : Verdict) : (writeVerdict v s).curveA = s.curveA := rfl
@[simp] theorem curveB_writeVerdict (v : Verdict) : (writeVerdict v s).curveB = s.curveB := rfl
@[simp] theorem curveN_writeVerdict (v : Verdict) : (writeVerdict v s).curveN = s.curveN := rfl
@[simp] theorem g_writeVerdict (v : Verdict) : (writeVerdict v s).g = s.g := rfl
@[simp] theorem cmd_writeVerdict (v : Verdict) : (writeVerdict v s).cmd = s.cmd := rfl
@[simp] theorem status_writeVerdict (v : Verdict) : (writeVerdict v s).status = s.status.verdict (v == .pass) (v == .failRange) := rfl
@[simp] theorem errcode_writeVerdict (v : Verdict) : (writeVerdict v s).errcode = s.errcode := rfl
@[simp] theorem errcmd_writeVerdict (v : Verdict) : (writeVerdict v s).errcmd = s.errcmd := rfl
@[simp] theorem ctrl_writeVerdict (v : Verdict) : (writeVerdict v s).ctrl = s.ctrl := rfl
@[simp] theorem retryLimit_writeVerdict (v : Verdict) : (writeVerdict v s).retryLimit = s.retryLimit := rfl
@[simp] theorem retryCount_writeVerdict (v : Verdict) : (writeVerdict v s).retryCount = s.retryCount := rfl
@[simp] theorem attempts_writeVerdict (v : Verdict) : (writeVerdict v s).attempts = s.attempts := rfl
@[simp] theorem rndReq_writeVerdict (v : Verdict) : (writeVerdict v s).rndReq = s.rndReq := rfl
@[simp] theorem rstN_writeVerdict (v : Verdict) : (writeVerdict v s).rstN = s.rstN := rfl
@[simp] theorem hRdata_writeVerdict (v : Verdict) : (writeVerdict v s).hRdata = s.hRdata := rfl
@[simp] theorem inputs_writeVerdict (v : Verdict) : (writeVerdict v s).inputs = s.inputs := rfl
@[simp] theorem entropy_writeVerdict (v : Verdict) : (writeVerdict v s).entropy = s.entropy := rfl
@[simp] theorem scalar_writeVerdict (v : Verdict) (j : ScReg) : (writeVerdict v s).scalar j = s.scalar j := rfl
@[simp] theorem pointReg_writeVerdict (v : Verdict) (j : PtReg) : (writeVerdict v s).pointReg j = s.pointReg j := rfl
@[simp] theorem point_writeVerdict (v : Verdict) (j : PtReg) : (writeVerdict v s).point j = s.point j := rfl
@[simp] theorem basePoint_writeVerdict (v : Verdict) : (writeVerdict v s).basePoint = s.basePoint := rfl

/-! ### `setScalar` -/

@[simp] theorem sc_setScalar (i : ScReg) (v : Nat) : (s.setScalar i v).sc = s.sc.set i.val v := rfl
@[simp] theorem pt_setScalar (i : ScReg) (v : Nat) : (s.setScalar i v).pt = s.pt := rfl
@[simp] theorem curveP_setScalar (i : ScReg) (v : Nat) : (s.setScalar i v).curveP = s.curveP := rfl
@[simp] theorem curveA_setScalar (i : ScReg) (v : Nat) : (s.setScalar i v).curveA = s.curveA := rfl
@[simp] theorem curveB_setScalar (i : ScReg) (v : Nat) : (s.setScalar i v).curveB = s.curveB := rfl
@[simp] theorem curveN_setScalar (i : ScReg) (v : Nat) : (s.setScalar i v).curveN = s.curveN := rfl
@[simp] theorem g_setScalar (i : ScReg) (v : Nat) : (s.setScalar i v).g = s.g := rfl
@[simp] theorem cmd_setScalar (i : ScReg) (v : Nat) : (s.setScalar i v).cmd = s.cmd := rfl
@[simp] theorem status_setScalar (i : ScReg) (v : Nat) : (s.setScalar i v).status = s.status := rfl
@[simp] theorem errcode_setScalar (i : ScReg) (v : Nat) : (s.setScalar i v).errcode = s.errcode := rfl
@[simp] theorem errcmd_setScalar (i : ScReg) (v : Nat) : (s.setScalar i v).errcmd = s.errcmd := rfl
@[simp] theorem ctrl_setScalar (i : ScReg) (v : Nat) : (s.setScalar i v).ctrl = s.ctrl := rfl
@[simp] theorem retryLimit_setScalar (i : ScReg) (v : Nat) : (s.setScalar i v).retryLimit = s.retryLimit := rfl
@[simp] theorem retryCount_setScalar (i : ScReg) (v : Nat) : (s.setScalar i v).retryCount = s.retryCount := rfl
@[simp] theorem attempts_setScalar (i : ScReg) (v : Nat) : (s.setScalar i v).attempts = s.attempts := rfl
@[simp] theorem rndReq_setScalar (i : ScReg) (v : Nat) : (s.setScalar i v).rndReq = s.rndReq := rfl
@[simp] theorem rstN_setScalar (i : ScReg) (v : Nat) : (s.setScalar i v).rstN = s.rstN := rfl
@[simp] theorem hRdata_setScalar (i : ScReg) (v : Nat) : (s.setScalar i v).hRdata = s.hRdata := rfl
@[simp] theorem inputs_setScalar (i : ScReg) (v : Nat) : (s.setScalar i v).inputs = s.inputs := rfl
@[simp] theorem entropy_setScalar (i : ScReg) (v : Nat) : (s.setScalar i v).entropy = s.entropy := rfl
@[simp] theorem pointReg_setScalar (i : ScReg) (v : Nat) (j : PtReg) : (s.setScalar i v).pointReg j = s.pointReg j := rfl
@[simp] theorem point_setScalar (i : ScReg) (v : Nat) (j : PtReg) : (s.setScalar i v).point j = s.point j := rfl
@[simp] theorem basePoint_setScalar (i : ScReg) (v : Nat) : (s.setScalar i v).basePoint = s.basePoint := rfl

/-! ### `setPointReg` -/

@[simp] theorem sc_setPointReg (i : PtReg) (r : PointReg) : (s.setPointReg i r).sc = s.sc := rfl
@[simp] theorem pt_setPointReg (i : PtReg) (r : PointReg) : (s.setPointReg i r).pt = s.pt.set i.val r := rfl
@[simp] theorem curveP_setPointReg (i : PtReg) (r : PointReg) : (s.setPointReg i r).curveP = s.curveP := rfl
@[simp] theorem curveA_setPointReg (i : PtReg) (r : PointReg) : (s.setPointReg i r).curveA = s.curveA := rfl
@[simp] theorem curveB_setPointReg (i : PtReg) (r : PointReg) : (s.setPointReg i r).curveB = s.curveB := rfl
@[simp] theorem curveN_setPointReg (i : PtReg) (r : PointReg) : (s.setPointReg i r).curveN = s.curveN := rfl
@[simp] theorem g_setPointReg (i : PtReg) (r : PointReg) : (s.setPointReg i r).g = s.g := rfl
@[simp] theorem cmd_setPointReg (i : PtReg) (r : PointReg) : (s.setPointReg i r).cmd = s.cmd := rfl
@[simp] theorem status_setPointReg (i : PtReg) (r : PointReg) : (s.setPointReg i r).status = s.status := rfl
@[simp] theorem errcode_setPointReg (i : PtReg) (r : PointReg) : (s.setPointReg i r).errcode = s.errcode := rfl
@[simp] theorem errcmd_setPointReg (i : PtReg) (r : PointReg) : (s.setPointReg i r).errcmd = s.errcmd := rfl
@[simp] theorem ctrl_setPointReg (i : PtReg) (r : PointReg) : (s.setPointReg i r).ctrl = s.ctrl := rfl
@[simp] theorem retryLimit_setPointReg (i : PtReg) (r : PointReg) : (s.setPointReg i r).retryLimit = s.retryLimit := rfl
@[simp] theorem retryCount_setPointReg (i : PtReg) (r : PointReg) : (s.setPointReg i r).retryCount = s.retryCount := rfl
@[simp] theorem attempts_setPointReg (i : PtReg) (r : PointReg) : (s.setPointReg i r).attempts = s.attempts := rfl
@[simp] theorem rndReq_setPointReg (i : PtReg) (r : PointReg) : (s.setPointReg i r).rndReq = s.rndReq := rfl
@[simp] theorem rstN_setPointReg (i : PtReg) (r : PointReg) : (s.setPointReg i r).rstN = s.rstN := rfl
@[simp] theorem hRdata_setPointReg (i : PtReg) (r : PointReg) : (s.setPointReg i r).hRdata = s.hRdata := rfl
@[simp] theorem inputs_setPointReg (i : PtReg) (r : PointReg) : (s.setPointReg i r).inputs = s.inputs := rfl
@[simp] theorem entropy_setPointReg (i : PtReg) (r : PointReg) : (s.setPointReg i r).entropy = s.entropy := rfl
@[simp] theorem scalar_setPointReg (i : PtReg) (r : PointReg) (j : ScReg) : (s.setPointReg i r).scalar j = s.scalar j := rfl
@[simp] theorem basePoint_setPointReg (i : PtReg) (r : PointReg) : (s.setPointReg i r).basePoint = s.basePoint := rfl

/-! ### `setPoint` -/

@[simp] theorem sc_setPoint (i : PtReg) (P : Point) : (s.setPoint i P).sc = s.sc := rfl
@[simp] theorem pt_setPoint (i : PtReg) (P : Point) : (s.setPoint i P).pt = s.pt.set i.val P.toReg := rfl
@[simp] theorem curveP_setPoint (i : PtReg) (P : Point) : (s.setPoint i P).curveP = s.curveP := rfl
@[simp] theorem curveA_setPoint (i : PtReg) (P : Point) : (s.setPoint i P).curveA = s.curveA := rfl
@[simp] theorem curveB_setPoint (i : PtReg) (P : Point) : (s.setPoint i P).curveB = s.curveB := rfl
@[simp] theorem curveN_setPoint (i : PtReg) (P : Point) : (s.setPoint i P).curveN = s.curveN := rfl
@[simp] theorem g_setPoint (i : PtReg) (P : Point) : (s.setPoint i P).g = s.g := rfl
@[simp] theorem cmd_setPoint (i : PtReg) (P : Point) : (s.setPoint i P).cmd = s.cmd := rfl
@[simp] theorem status_setPoint (i : PtReg) (P : Point) : (s.setPoint i P).status = s.status := rfl
@[simp] theorem errcode_setPoint (i : PtReg) (P : Point) : (s.setPoint i P).errcode = s.errcode := rfl
@[simp] theorem errcmd_setPoint (i : PtReg) (P : Point) : (s.setPoint i P).errcmd = s.errcmd := rfl
@[simp] theorem ctrl_setPoint (i : PtReg) (P : Point) : (s.setPoint i P).ctrl = s.ctrl := rfl
@[simp] theorem retryLimit_setPoint (i : PtReg) (P : Point) : (s.setPoint i P).retryLimit = s.retryLimit := rfl
@[simp] theorem retryCount_setPoint (i : PtReg) (P : Point) : (s.setPoint i P).retryCount = s.retryCount := rfl
@[simp] theorem attempts_setPoint (i : PtReg) (P : Point) : (s.setPoint i P).attempts = s.attempts := rfl
@[simp] theorem rndReq_setPoint (i : PtReg) (P : Point) : (s.setPoint i P).rndReq = s.rndReq := rfl
@[simp] theorem rstN_setPoint (i : PtReg) (P : Point) : (s.setPoint i P).rstN = s.rstN := rfl
@[simp] theorem hRdata_setPoint (i : PtReg) (P : Point) : (s.setPoint i P).hRdata = s.hRdata := rfl
@[simp] theorem inputs_setPoint (i : PtReg) (P : Point) : (s.setPoint i P).inputs = s.inputs := rfl
@[simp] theorem entropy_setPoint (i : PtReg) (P : Point) : (s.setPoint i P).entropy = s.entropy := rfl
@[simp] theorem scalar_setPoint (i : PtReg) (P : Point) (j : ScReg) : (s.setPoint i P).scalar j = s.scalar j := rfl
@[simp] theorem basePoint_setPoint (i : PtReg) (P : Point) : (s.setPoint i P).basePoint = s.basePoint := rfl

/-! ### The register files -/

theorem scalar_setScalar (i j : ScReg) (v : Nat) :
    (s.setScalar i v).scalar j = if i = j then v else s.scalar j := by
  simp [State.scalar, setScalar, Vector.getElem_set, Fin.ext_iff]

@[simp] theorem scalar_setScalar_same (i : ScReg) (v : Nat) : (s.setScalar i v).scalar i = v := by
  simp [scalar_setScalar]

theorem pointReg_setPointReg (i j : PtReg) (r : PointReg) :
    (s.setPointReg i r).pointReg j = if i = j then r else s.pointReg j := by
  simp [State.pointReg, setPointReg, Vector.getElem_set, Fin.ext_iff]

theorem pointReg_setPoint (i j : PtReg) (P : Point) :
    (s.setPoint i P).pointReg j = if i = j then P.toReg else s.pointReg j :=
  pointReg_setPointReg s i j P.toReg

end State

/-- A register written with a point reads as that point (R12). -/
@[simp] theorem Point.toPoint_toReg (P : Point) : P.toReg.toPoint = P := by
  cases P <;> rfl

theorem State.point_setPoint (s : State) (i j : PtReg) (P : Point) :
    (s.setPoint i P).point j = if i = j then P else s.point j := by
  unfold State.point
  rw [State.pointReg_setPoint]
  split <;> simp

@[simp] theorem State.point_setPoint_same (s : State) (i : PtReg) (P : Point) :
    (s.setPoint i P).point i = P := by
  simp [State.point_setPoint]

/-! ### `STATUS` -/

namespace Status

variable (st : Status)

@[simp] theorem busy_accepted : (st.accepted).busy = true := rfl
@[simp] theorem done_accepted : (st.accepted).done = false := rfl
@[simp] theorem err_accepted : (st.accepted).err = st.err := rfl
@[simp] theorem herr_accepted : (st.accepted).herr = st.herr := rfl
@[simp] theorem v_accepted : (st.accepted).v = st.v := rfl
@[simp] theorem rnge_accepted : (st.accepted).rnge = st.rnge := rfl
@[simp] theorem busy_committed : (st.committed).busy = false := rfl
@[simp] theorem done_committed : (st.committed).done = true := rfl
@[simp] theorem err_committed : (st.committed).err = st.err := rfl
@[simp] theorem herr_committed : (st.committed).herr = st.herr := rfl
@[simp] theorem v_committed : (st.committed).v = st.v := rfl
@[simp] theorem rnge_committed : (st.committed).rnge = st.rnge := rfl
@[simp] theorem busy_faulted : (st.faulted).busy = false := rfl
@[simp] theorem done_faulted : (st.faulted).done = true := rfl
@[simp] theorem err_faulted : (st.faulted).err = true := rfl
@[simp] theorem herr_faulted : (st.faulted).herr = st.herr := rfl
@[simp] theorem v_faulted : (st.faulted).v = st.v := rfl
@[simp] theorem rnge_faulted : (st.faulted).rnge = st.rnge := rfl
@[simp] theorem busy_hostError : (st.hostError).busy = st.busy := rfl
@[simp] theorem done_hostError : (st.hostError).done = st.done := rfl
@[simp] theorem err_hostError : (st.hostError).err = st.err := rfl
@[simp] theorem herr_hostError : (st.hostError).herr = true := rfl
@[simp] theorem v_hostError : (st.hostError).v = st.v := rfl
@[simp] theorem rnge_hostError : (st.hostError).rnge = st.rnge := rfl
@[simp] theorem busy_verdict (a b : Bool) : (st.verdict a b).busy = st.busy := rfl
@[simp] theorem done_verdict (a b : Bool) : (st.verdict a b).done = st.done := rfl
@[simp] theorem err_verdict (a b : Bool) : (st.verdict a b).err = st.err := rfl
@[simp] theorem herr_verdict (a b : Bool) : (st.verdict a b).herr = st.herr := rfl
@[simp] theorem v_verdict (a b : Bool) : (st.verdict a b).v = a := rfl
@[simp] theorem rnge_verdict (a b : Bool) : (st.verdict a b).rnge = b := rfl
@[simp] theorem busy_writeOneToClear (x : Nat) : (st.writeOneToClear x).busy = st.busy := rfl
@[simp] theorem done_writeOneToClear (x : Nat) : (st.writeOneToClear x).done = (st.done && !x.testBit 1) := rfl
@[simp] theorem err_writeOneToClear (x : Nat) : (st.writeOneToClear x).err = (st.err && !x.testBit 2) := rfl
@[simp] theorem herr_writeOneToClear (x : Nat) : (st.writeOneToClear x).herr = (st.herr && !x.testBit 3) := rfl
@[simp] theorem v_writeOneToClear (x : Nat) : (st.writeOneToClear x).v = st.v := rfl
@[simp] theorem rnge_writeOneToClear (x : Nat) : (st.writeOneToClear x).rnge = st.rnge := rfl

end Status
end Sys2Proof.Machine
end

