-- ==== Sys2Proof/Laws/Ops.lean ====
section
/-! SUPPORT. Laws/Ops: everything the shared operations `finish` and `drawLoop` can do. -/

namespace Sys2Proof.Machine

variable {α : Type}

@[simp] theorem finish_ok (v : α) (write : α → State → State) (s : State) :
    finish (.ok v) write s = .next (write v s).commit := rfl

@[simp] theorem finish_error (c : Cause) (write : α → State → State) (s : State) :
    finish (.error c) write s = .next (s.takeFault c) := rfl

/-- A command without a draw commits or takes its fault. -/
theorem finish_cases {r : Result α} {write : α → State → State} {s t : State}
    (h : finish r write s = .next t) :
    (∃ v, r = .ok v ∧ t = (write v s).commit) ∨ (∃ c, r = .error c ∧ t = s.takeFault c) := by
  cases r with
  | ok v => exact .inl ⟨v, rfl, by simpa using h.symm⟩
  | error c => exact .inr ⟨c, rfl, by simpa using h.symm⟩

theorem finish_next (r : Result α) (write : α → State → State) (s : State) :
    ∃ t, finish r write s = .next t := by
  cases r <;> exact ⟨_, rfl⟩

/-- The state in which an attempt is made: the answer consumed, the request withdrawn, the attempt
counted. -/
def State.drawn (s : State) (rest : List Nat) : State :=
  { s with attempts := s.attemptNumber, rndReq := none, entropy := rest }

theorem State.mayDraw_or_capped (s : State) :
    s.mayDraw ∨ (s.rndReq = none ∧ s.retryLimit ≠ 0#16 ∧ s.attempts = s.retryLimit.toNat) := by
  unfold State.mayDraw
  by_cases h1 : s.rndReq = none <;> by_cases h2 : s.retryLimit = 0#16 <;>
    by_cases h3 : s.attempts = s.retryLimit.toNat <;> simp [h1, h2, h3]

theorem answerDraw_cons (attempt : Nat → Result (Option α)) (write : α → State → State)
    {s : State} {c : Nat} {rest : List Nat} (h : s.entropy = c :: rest) :
    answerDraw attempt write s =
      match attempt c with
      | .ok none => .next (s.takeAnswer rest)
      | .ok (some v) => .next (write v (s.takeAnswer rest).publishAttempts).commit
      | .error e => .next ((s.takeAnswer rest).publishAttempts.takeFault e) := by
  unfold answerDraw
  rw [h] <;> rfl

theorem drawLoop_emptyRange (attempt : Nat → Result (Option α)) (write : α → State → State)
    {s : State} (h : s.curveN < 2) :
    drawLoop attempt write s = .next ({ s with retryCount := 0#16 }.takeFault .emptyRange) := by
  simp [drawLoop, h]

theorem drawLoop_retry (attempt : Nat → Result (Option α)) (write : α → State → State)
    {s : State} (hn : 2 ≤ s.curveN) (hr : s.rndReq = none) (hl : s.retryLimit ≠ 0#16)
    (ha : s.attempts = s.retryLimit.toNat) :
    drawLoop attempt write s = .next (s.publishAttempts.takeFault .retry) := by
  simp [drawLoop, hr, hl, ha, show ¬ s.curveN < 2 by omega]

theorem drawLoop_waits_requested (attempt : Nat → Result (Option α)) (write : α → State → State)
    {s : State} {bound : Nat} (hn : 2 ≤ s.curveN) (hr : s.rndReq = some bound)
    (he : s.entropy = []) : drawLoop attempt write s = .next s := by
  simp [drawLoop, hr, answerDraw, he, show ¬ s.curveN < 2 by omega]

theorem drawLoop_waits_requesting (attempt : Nat → Result (Option α)) (write : α → State → State)
    {s : State} (hn : 2 ≤ s.curveN) (hr : s.rndReq = none) (hd : s.mayDraw)
    (he : s.entropy = []) :
    drawLoop attempt write s = .next (s.requestDraw (s.curveN - 1)) := by
  have hc : ¬ (s.retryLimit ≠ 0#16 ∧ s.attempts = s.retryLimit.toNat) := by
    rcases hd with h | h | h <;> simp_all
  unfold drawLoop
  rw [if_neg (by omega), hr]
  simp only [if_neg hc, answerDraw, State.entropy_requestDraw, he]

/-- One attempt of a draw loop, whether its request is new or waits. -/
theorem drawLoop_attempt (attempt : Nat → Result (Option α)) (write : α → State → State)
    {s : State} {c : Nat} {rest : List Nat} (hn : 2 ≤ s.curveN) (hd : s.mayDraw)
    (he : s.entropy = c :: rest) :
    drawLoop attempt write s =
      match attempt c with
      | .ok none => .next (s.drawn rest)
      | .ok (some v) => .next (write v (s.drawn rest).publishAttempts).commit
      | .error e => .next ((s.drawn rest).publishAttempts.takeFault e) := by
  unfold drawLoop
  rw [if_neg (by omega)]
  cases hr : s.rndReq with
  | none =>
    have hc : ¬ (s.retryLimit ≠ 0#16 ∧ s.attempts = s.retryLimit.toNat) := by
      rcases hd with h | h | h <;> simp_all
    have hs : (s.requestDraw (s.curveN - 1)).takeAnswer rest = s.drawn rest := by
      simp [State.drawn, State.takeAnswer, State.requestDraw, State.attemptNumber, hr]
    simp only [if_neg hc]
    rw [answerDraw_cons attempt write (s := s.requestDraw (s.curveN - 1)) he, hs]
  | some b =>
    have hs : s.takeAnswer rest = s.drawn rest := by
      simp [State.drawn, State.takeAnswer, State.attemptNumber, hr]
    simp only
    rw [answerDraw_cons attempt write he, hs]

/-- Everything one turn of a draw loop can do. -/
theorem drawLoop_cases {attempt : Nat → Result (Option α)} {write : α → State → State}
    {s t : State} (h : drawLoop attempt write s = .next t) :
    (s.curveN < 2 ∧ t = { s with retryCount := 0#16 }.takeFault .emptyRange) ∨
    (2 ≤ s.curveN ∧ s.rndReq = none ∧ s.retryLimit ≠ 0#16 ∧ s.attempts = s.retryLimit.toNat ∧
      t = s.publishAttempts.takeFault .retry) ∨
    (2 ≤ s.curveN ∧ s.mayDraw ∧ s.entropy = [] ∧
      ((s.rndReq = none ∧ t = s.requestDraw (s.curveN - 1)) ∨ (s.rndReq ≠ none ∧ t = s))) ∨
    (2 ≤ s.curveN ∧ s.mayDraw ∧ ∃ c rest, s.entropy = c :: rest ∧
      ((attempt c = .ok none ∧ t = s.drawn rest) ∨
       (∃ v, attempt c = .ok (some v) ∧ t = (write v (s.drawn rest).publishAttempts).commit) ∨
       (∃ e, attempt c = .error e ∧ t = (s.drawn rest).publishAttempts.takeFault e))) := by
  by_cases hn : s.curveN < 2
  · rw [drawLoop_emptyRange attempt write hn] at h
    exact .inl ⟨hn, by simpa using h.symm⟩
  have hn' : 2 ≤ s.curveN := by omega
  rcases s.mayDraw_or_capped with hd | ⟨hr, hl, ha⟩
  · cases he : s.entropy with
    | nil =>
      refine .inr (.inr (.inl ⟨hn', hd, rfl, ?_⟩))
      cases hr : s.rndReq with
      | none =>
        rw [drawLoop_waits_requesting attempt write hn' hr hd he] at h
        exact .inl ⟨rfl, by simpa using h.symm⟩
      | some b =>
        rw [drawLoop_waits_requested attempt write hn' hr he] at h
        exact .inr ⟨by simp, by simpa using h.symm⟩
    | cons c rest =>
      refine .inr (.inr (.inr ⟨hn', hd, c, rest, rfl, ?_⟩))
      rw [drawLoop_attempt attempt write hn' hd he] at h
      split at h
      · next h' => exact .inl ⟨h', by simpa using h.symm⟩
      · next v h' => exact .inr (.inl ⟨v, h', by simpa using h.symm⟩)
      · next e h' => exact .inr (.inr ⟨e, h', by simpa using h.symm⟩)
  · rw [drawLoop_retry attempt write hn' hr hl ha] at h
    exact .inr (.inl ⟨hn', hr, hl, ha, by simpa using h.symm⟩)

theorem drawLoop_next (attempt : Nat → Result (Option α)) (write : α → State → State)
    (s : State) : ∃ t, drawLoop attempt write s = .next t := by
  unfold drawLoop answerDraw
  repeat' split
  all_goals exact ⟨_, rfl⟩

end Sys2Proof.Machine
end

