-- ==== Sys2Proof/Laws/Exec.lean ====
section
/-! SUPPORT. Laws/Exec: everything a command and the sequencer can do, said once (spec/60_exceptions.md R185,
R193; spec/44_ecdsa.md R163, R166, R169). -/

namespace Sys2Proof.Machine

/-! ### Values fit their registers (spec/40_field_inverse.md R116) -/

theorem State.FitsWidth.point {w : Nat} {s : State} (h : s.FitsWidth w) (i : PtReg) :
    (s.point i).FitsWidth w := by
  unfold State.point PointReg.toPoint
  split
  · trivial
  · exact h.pt i

theorem State.FitsWidth.basePoint {w : Nat} {s : State} (h : s.FitsWidth w) :
    s.basePoint.FitsWidth w := by
  unfold State.basePoint PointReg.toPoint
  split
  · trivial
  · exact h.g

theorem Point.FitsWidth.toReg {w : Nat} {P : Point} (h : P.FitsWidth w) :
    fitsIn w P.toReg.x ∧ fitsIn w P.toReg.y := by
  cases P with
  | identity => exact ⟨Nat.two_pow_pos w, Nat.two_pow_pos w⟩
  | affine x y => exact h

theorem State.FitsWidth.setScalar {w : Nat} {s : State} (h : s.FitsWidth w) (i : ScReg) {v : Nat}
    (hv : fitsIn w v) : (s.setScalar i v).FitsWidth w :=
  { h with
    sc := fun j => by
      rw [State.scalar_setScalar]
      split
      · exact hv
      · exact h.sc j
    pt := h.pt }

theorem State.FitsWidth.setPoint {w : Nat} {s : State} (h : s.FitsWidth w) (i : PtReg) {P : Point}
    (hP : P.FitsWidth w) : (s.setPoint i P).FitsWidth w :=
  { h with
    sc := h.sc
    pt := fun j => by
      rw [State.pointReg_setPoint]
      split
      · exact hP.toReg
      · exact h.pt j }

theorem encrypt_ok_iff {Pm : Point} {k a p : Nat} {G Pb : Point} {C : Point × Point} :
    encrypt Pm k a p G Pb = .ok C ↔
      ∃ S, mul k Pb a p = .ok S ∧ mul k G a p = .ok C.1 ∧ add Pm S a p = .ok C.2 := by
  simp only [encrypt, bind_ok_iff, pure, Except.pure, Except.ok.injEq]
  constructor
  · rintro ⟨S, h1, C1, h2, C2, h3, rfl⟩; exact ⟨S, h1, h2, h3⟩
  · rintro ⟨S, h1, h2, h3⟩; exact ⟨S, h1, C.1, h2, C.2, h3, rfl⟩

theorem encrypt_error {Pm : Point} {k a p : Nat} {G Pb : Point} {c : Cause}
    (h : encrypt Pm k a p G Pb = .error c) : c = .arith := by
  simp only [encrypt, bind_error_iff, pure, Except.pure] at h
  rcases h with h | ⟨_, _, h | ⟨_, _, h | ⟨_, _, h⟩⟩⟩
  · exact mul_error h
  · exact mul_error h
  · exact add_error h
  · cases h

theorem decrypt_ok_iff {C1 C2 : Point} {b a p : Nat} {M : Point} :
    decrypt C1 C2 b a p = .ok M ↔
      ∃ S N, mul b C1 a p = .ok S ∧ neg S p = .ok N ∧ add C2 N a p = .ok M := by
  simp only [decrypt, bind_ok_iff]
  constructor
  · rintro ⟨S, h1, N, h2, h3⟩; exact ⟨S, N, h1, h2, h3⟩
  · rintro ⟨S, N, h1, h2, h3⟩; exact ⟨S, h1, N, h2, h3⟩

theorem decrypt_error {C1 C2 : Point} {b a p : Nat} {c : Cause}
    (h : decrypt C1 C2 b a p = .error c) : c = .arith := by
  simp only [decrypt, bind_error_iff] at h
  rcases h with h | ⟨_, _, h | ⟨_, _, h⟩⟩
  · exact mul_error h
  · exact (neg_error h).1
  · exact add_error h

theorem keyAttempt_some_iff {n : Nat} {G : Point} {a p c : Nat} {k : Nat × Point} :
    keyAttempt n G a p c = .ok (some k) ↔
      1 ≤ c ∧ c ≤ n - 1 ∧ k.1 = c ∧ mul c G a p = .ok k.2 := by
  unfold keyAttempt
  split
  · next h =>
    simp only [inDrawRange, Bool.and_eq_true, decide_eq_true_eq] at h
    simp only [bind_ok_iff, pure, Except.pure, Except.ok.injEq, Option.some.injEq]
    constructor
    · rintro ⟨Q, hQ, rfl⟩; exact ⟨h.1, h.2, rfl, hQ⟩
    · rintro ⟨_, _, h3, h4⟩; exact ⟨k.2, h4, by rw [← h3]⟩
  · next h =>
    simp only [inDrawRange, Bool.and_eq_true, decide_eq_true_eq] at h
    constructor
    · intro h'; cases h'
    · rintro ⟨h1, h2, _⟩; exact absurd ⟨h1, h2⟩ h

theorem keyAttempt_error {n : Nat} {G : Point} {a p c : Nat} {e : Cause}
    (h : keyAttempt n G a p c = .error e) : e = .arith := by
  unfold keyAttempt at h
  split at h
  · simp only [bind_error_iff, pure, Except.pure] at h
    rcases h with h | ⟨_, _, h⟩
    · exact mul_error h
    · cases h
  · cases h

/-- What a completed attempt of `DSASGN` has computed (R165). -/
theorem signAttempt_some {z d n : Nat} {G : Point} {a p c : Nat} {sig : Nat × Nat}
    (h : signAttempt z d n G a p c = .ok (some sig)) :
    1 ≤ c ∧ c < n ∧ sig.1 ≠ 0 ∧ sig.1 < n ∧ sig.2 ≠ 0 ∧ sig.2 < n ∧
      ∃ x y i, mul c G a p = .ok (.affine x y) ∧ sig.1 = x % n ∧ inv c n = .ok i ∧
        (sig.2 : Int) = i * (z + sig.1 * d) % n := by
  unfold signAttempt at h
  split at h
  · next hc =>
    simp only [inDrawRange, Bool.and_eq_true, decide_eq_true_eq] at hc
    obtain ⟨K, hK, h⟩ := bind_ok_iff.1 h
    cases K with
    | identity => cases h
    | affine x y =>
      obtain ⟨r, hr, h⟩ := bind_ok_iff.1 h
      have hrn := reduce_ok_lt hr
      have hrx : r = x % n := by have := (reduce_ok_iff.1 hr).2; exact_mod_cast this
      split at h
      · cases h
      · next hr0 =>
        obtain ⟨i, hi, h⟩ := bind_ok_iff.1 h
        obtain ⟨v, hv, h⟩ := bind_ok_iff.1 h
        have hvn := reduce_ok_lt hv
        split at h
        · cases h
        · next hv0 =>
          cases h
          exact ⟨hc.1, by omega, hr0, hrn, hv0, hvn, x, y, i, hK, hrx, hi, (reduce_ok_iff.1 hv).2⟩
  · cases h

theorem signAttempt_error {z d n : Nat} {G : Point} {a p c : Nat} {e : Cause}
    (h : signAttempt z d n G a p c = .error e) : e = .arith := by
  unfold signAttempt at h
  split at h
  · rcases bind_error_iff.1 h with h | ⟨K, -, h⟩
    · exact mul_error h
    cases K with
    | identity => cases h
    | affine x y =>
      rcases bind_error_iff.1 h with h | ⟨r, -, h⟩
      · exact (reduce_error h).1
      split at h
      · cases h
      rcases bind_error_iff.1 h with h | ⟨i, -, h⟩
      · exact (inv_error_iff.1 h).1
      rcases bind_error_iff.1 h with h | ⟨v, -, h⟩
      · exact (reduce_error h).1
      split at h <;> cases h
  · cases h

theorem verify_error {r s z : Nat} {Q : Point} {n : Nat} {G : Point} {a p : Nat} {c : Cause}
    (h : verify r s z Q n G a p = .error c) : c = .arith := by
  unfold verify at h
  split at h
  · simp only [bind_error_iff] at h
    rcases h with h | ⟨w, _, h | ⟨u1, _, h | ⟨u2, _, h | ⟨X1, _, h | ⟨X2, _, h | ⟨X, _, h⟩⟩⟩⟩⟩⟩
    · exact (inv_error_iff.1 h).1
    · exact (reduce_error h).1
    · exact (reduce_error h).1
    · exact mul_error h
    · exact mul_error h
    · exact add_error h
    · cases X with
      | identity => cases h
      | affine x y =>
        rcases bind_error_iff.1 h with h | ⟨v, -, h⟩
        · exact (reduce_error h).1
        · split at h <;> cases h
  · cases h

/-! ### The destinations of a command -/

/-- `u` is `s` with destinations of `i` written, by values that fit. -/
def Writes (i : Instr) (s u : State) : Prop :=
  ∃ sc pt, u = { s with sc := sc, pt := pt } ∧
    (∀ r, r ∉ i.scalarDests → u.scalar r = s.scalar r) ∧
    (∀ r, r ∉ i.pointDests → u.pointReg r = s.pointReg r) ∧
    ∀ w, s.FitsWidth w → u.FitsWidth w

theorem Writes.refl (i : Instr) (s : State) : Writes i s s :=
  ⟨s.sc, s.pt, rfl, fun _ _ => rfl, fun _ _ => rfl, fun _ h => h⟩

theorem Writes.setScalar {i : Instr} {s u : State} (h : Writes i s u) {d : ScReg} {v : Nat}
    (hd : d ∈ i.scalarDests) (hv : ∀ w, s.FitsWidth w → fitsIn w v) :
    Writes i s (u.setScalar d v) := by
  obtain ⟨sc, pt, rfl, h1, h2, h3⟩ := h
  refine ⟨_, pt, rfl, fun r hr => ?_, h2, fun w hs => (h3 w hs).setScalar d (hv w hs)⟩
  rw [State.scalar_setScalar, if_neg (by rintro rfl; exact hr hd)]
  exact h1 r hr

theorem Writes.setPoint {i : Instr} {s u : State} (h : Writes i s u) {d : PtReg} {P : Point}
    (hd : d ∈ i.pointDests) (hP : ∀ w, s.FitsWidth w → P.FitsWidth w) :
    Writes i s (u.setPoint d P) := by
  obtain ⟨sc, pt, rfl, h1, h2, h3⟩ := h
  refine ⟨sc, _, rfl, h1, fun r hr => ?_, fun w hs => (h3 w hs).setPoint d (hP w hs)⟩
  rw [State.pointReg_setPoint, if_neg (by rintro rfl; exact hr hd)]
  exact h2 r hr

/-! ### Everything a command can do -/

/-- A command without draw or verdict commits with its destinations written, or takes `Arith`. -/
theorem finish_writes {α : Type} {i : Instr} {r : Result α} {write : α → State → State} {s t : State}
    (h : finish r write s = .next t) (hw : ∀ v, r = .ok v → Writes i s (write v s))
    (he : ∀ c, r = .error c → c = .arith) :
    (∃ u, Writes i s u ∧ t = u.commit) ∨ t = s.takeFault .arith := by
  rcases finish_cases h with ⟨v, hv, rfl⟩ | ⟨c, hc, rfl⟩
  · exact .inl ⟨_, hw v hv, rfl⟩
  · rw [he c hc]; exact .inr rfl

/-- What one turn of a draw loop can do, the attempt's arithmetic left out. -/
def DrawTurn (i : Instr) (s t : State) : Prop :=
  (s.curveN < 2 ∧ t = { s with retryCount := 0#16 }.takeFault .emptyRange) ∨
  (2 ≤ s.curveN ∧ s.rndReq = none ∧ s.retryLimit ≠ 0#16 ∧ s.attempts = s.retryLimit.toNat ∧
    t = s.publishAttempts.takeFault .retry) ∨
  (2 ≤ s.curveN ∧ s.mayDraw ∧ s.entropy = [] ∧
    ((s.rndReq = none ∧ t = s.requestDraw (s.curveN - 1)) ∨ (s.rndReq ≠ none ∧ t = s))) ∨
  (2 ≤ s.curveN ∧ s.mayDraw ∧ ∃ c rest, s.entropy = c :: rest ∧
    (t = s.drawn rest ∨
     (∃ u, Writes i (s.drawn rest).publishAttempts u ∧ t = u.commit) ∨
     t = (s.drawn rest).publishAttempts.takeFault .arith))

theorem drawLoop_turn {α : Type} {i : Instr} {attempt : Nat → Result (Option α)}
    {write : α → State → State} {s t : State} (h : drawLoop attempt write s = .next t)
    (hw : ∀ c rest v, attempt c = .ok (some v) →
      Writes i (s.drawn rest).publishAttempts (write v (s.drawn rest).publishAttempts))
    (he : ∀ c e, attempt c = .error e → e = .arith) : DrawTurn i s t := by
  rcases drawLoop_cases h with h | h | h | ⟨hn, hd, c, rest, hc, h⟩
  · exact .inl h
  · exact .inr (.inl h)
  · exact .inr (.inr (.inl h))
  · refine .inr (.inr (.inr ⟨hn, hd, c, rest, hc, ?_⟩))
    rcases h with ⟨-, rfl⟩ | ⟨v, hv, rfl⟩ | ⟨e, hE, rfl⟩
    · exact .inl rfl
    · exact .inr (.inl ⟨_, hw c rest v hv, rfl⟩)
    · rw [he c e hE]; exact .inr (.inr rfl)

/-- Everything a command can do. -/
theorem exec_cases {i : Instr} {s t : State} (h : exec i s = .next t) :
    (i.wellFormed = false ∧ t = s.takeFault .illegal) ∨
    (i.draws = false ∧ i.verifies = false ∧
      ((∃ u, Writes i s u ∧ t = u.commit) ∨ t = s.takeFault .arith)) ∨
    (i.draws = false ∧ i.verifies = true ∧
      ((∃ v, t = (writeVerdict v s).commit) ∨ t = (writeVerdict .fail s).takeFault .arith)) ∨
    (i.draws = true ∧ i.verifies = false ∧ DrawTurn i s t) := by
  cases i with
  | minv sd sk sm =>
    refine .inr (.inl ⟨rfl, rfl, finish_writes h (fun v hv => ?_) fun c hc => (inv_error_iff.1 hc).1⟩)
    exact (Writes.refl _ s).setScalar (by simp [Instr.scalarDests])
      fun w hs => lt_trans (inv_lt hv) (hs.sc sm)
  | padd pd pa pb =>
    refine .inr (.inl ⟨rfl, rfl, finish_writes h (fun v hv => ?_) fun c hc => add_error hc⟩)
    exact (Writes.refl _ s).setPoint (by simp [Instr.pointDests])
      fun w hs => add_fits hs.curveP (hs.point pa) (hs.point pb) hv
  | pneg pd pa =>
    refine .inr (.inl ⟨rfl, rfl, finish_writes h (fun v hv => ?_) fun c hc => (neg_error hc).1⟩)
    exact (Writes.refl _ s).setPoint (by simp [Instr.pointDests])
      fun w hs => neg_fits hs.curveP (hs.point pa) hv
  | pmul pd sk pa =>
    refine .inr (.inl ⟨rfl, rfl, finish_writes h (fun v hv => ?_) fun c hc => mul_error hc⟩)
    exact (Writes.refl _ s).setPoint (by simp [Instr.pointDests])
      fun w hs => mul_fits hs.curveP (hs.point pa) hv
  | egkey pd sb =>
    refine .inr (.inl ⟨rfl, rfl, finish_writes h (fun v hv => ?_) fun c hc => mul_error hc⟩)
    exact (Writes.refl _ s).setPoint (by simp [Instr.pointDests])
      fun w hs => mul_fits hs.curveP hs.basePoint hv
  | egenc pc1 pc2 pm sk pb =>
    simp only [exec, execEgenc] at h
    split at h
    · next hd => exact .inl ⟨by simp [Instr.wellFormed, hd], by simpa using h.symm⟩
    refine .inr (.inl ⟨rfl, rfl, finish_writes h (fun v hv => ?_) fun c hc => encrypt_error hc⟩)
    obtain ⟨S, h1, h2, h3⟩ := encrypt_ok_iff.1 hv
    exact ((Writes.refl _ s).setPoint (by simp [Instr.pointDests])
      fun w hs => mul_fits hs.curveP hs.basePoint h2).setPoint (by simp [Instr.pointDests])
      fun w hs => add_fits hs.curveP (hs.point pm) (mul_fits hs.curveP (hs.point pb) h1) h3
  | egdec pd pc1 pc2 sb =>
    refine .inr (.inl ⟨rfl, rfl, finish_writes h (fun v hv => ?_) fun c hc => decrypt_error hc⟩)
    obtain ⟨S, N, h1, h2, h3⟩ := decrypt_ok_iff.1 hv
    exact (Writes.refl _ s).setPoint (by simp [Instr.pointDests]) fun w hs =>
      add_fits hs.curveP (hs.point pc2)
        (neg_fits hs.curveP (mul_fits hs.curveP (hs.point pc1) h1) h2) h3
  | dsakg sd pq =>
    refine .inr (.inr (.inr ⟨rfl, rfl, drawLoop_turn h (fun c rest v hv => ?_)
      fun c e he => keyAttempt_error he⟩))
    obtain ⟨-, hc, hk, hQ⟩ := keyAttempt_some_iff.1 hv
    exact ((Writes.refl _ _).setScalar (by simp [Instr.scalarDests]) fun w hs => by
      have : s.curveN < 2 ^ w := hs.curveN
      show v.1 < 2 ^ w
      omega).setPoint (by simp [Instr.pointDests])
      fun w hs => mul_fits hs.curveP hs.basePoint hQ
  | dsasgn sr ss sz sd =>
    simp only [exec, execDsasgn] at h
    split at h
    · next hd => exact .inl ⟨by simp [Instr.wellFormed, hd], by simpa using h.symm⟩
    refine .inr (.inr (.inr ⟨rfl, rfl, drawLoop_turn h (fun c rest v hv => ?_)
      fun c e he => signAttempt_error he⟩))
    obtain ⟨-, -, -, hr, -, hs', -⟩ := signAttempt_some hv
    have hfit : ∀ v < s.curveN, ∀ w, ((s.drawn rest).publishAttempts).FitsWidth w → fitsIn w v :=
      fun _ hv w hs => lt_trans hv (show s.curveN < 2 ^ w from hs.curveN)
    exact ((Writes.refl _ _).setScalar (d := sr) (by simp [Instr.scalarDests]) (hfit _ hr)).setScalar
      (d := ss) (by simp [Instr.scalarDests]) (hfit _ hs')
  | dsavfy sr ss sz pq =>
    refine .inr (.inr (.inl ⟨rfl, rfl, ?_⟩))
    simp only [exec, execDsavfy] at h
    split at h
    · next v _ => exact .inl ⟨v, by simpa using h.symm⟩
    · next c hc => rw [verify_error hc] at h; exact .inr (by simpa using h.symm)

end Sys2Proof.Machine
end

