-- ==== Sys2Proof/Laws/Group.lean ====
section
/-! SUPPORT. Laws/Group: for valid parameters `add`, `neg` and `mul` are the group operations of the elliptic
curve over the integers modulo `p`, as Mathlib has it (spec/41_point_add.md R128; spec/42_scalar_mult.md R140). -/

namespace Sys2Proof.Machine

/-- The curve `y^2 = x^3 + ax + b` over the integers modulo `p`. -/
def curveOf (a b p : Nat) : WeierstrassCurve.Affine (ZMod p) := ⟨0, 0, 0, a, b⟩

/-- A point of the machine stands for a point of the group. -/
def Represents (a b p : Nat) [Fact p.Prime] (P : Point) (g : (curveOf a b p).Point) : Prop :=
  match P with
  | .identity => g = 0
  | .affine x y => x < p ∧ y < p ∧ ∃ h, g = .some (x : ZMod p) (y : ZMod p) h

section
variable {a b p : Nat}

theorem curveOf_equation_iff (x y : Nat) :
    (curveOf a b p).Equation (x : ZMod p) (y : ZMod p) ↔
      y * y % p = (x * x * x + a * x + b) % p := by
  rw [WeierstrassCurve.Affine.equation_iff, ← ZMod.natCast_eq_natCast_iff']
  simp only [curveOf]
  push_cast
  constructor <;> intro h
  · linear_combination h
  · linear_combination h

variable (hv : ValidCurve a b p)
include hv

theorem ValidCurve.two_ne_zero [Fact p.Prime] : (2 : ZMod p) ≠ 0 := by
  intro h
  have h2 : ((2 : Nat) : ZMod p) = 0 := by exact_mod_cast h
  rw [ZMod.natCast_eq_zero_iff] at h2
  have := Nat.le_of_dvd (by omega) h2
  have := hv.large
  omega

theorem ValidCurve.discriminant_ne_zero [Fact p.Prime] : (curveOf a b p).Δ ≠ 0 := by
  have h : ((4 * a * a * a + 27 * b * b : Nat) : ZMod p) ≠ 0 := by
    rw [Ne, ZMod.natCast_eq_zero_iff, Nat.dvd_iff_mod_eq_zero]
    exact hv.nonsingular
  have hΔ : (curveOf a b p).Δ = -(2 ^ 4 * ((4 * a * a * a + 27 * b * b : Nat) : ZMod p)) := by
    simp only [curveOf, WeierstrassCurve.Δ, WeierstrassCurve.b₂, WeierstrassCurve.b₄,
      WeierstrassCurve.b₆, WeierstrassCurve.b₈]
    push_cast
    ring
  rw [hΔ, neg_ne_zero]
  exact mul_ne_zero (pow_ne_zero _ hv.two_ne_zero) h

theorem ValidCurve.nonsingular_iff [Fact p.Prime] (x y : Nat) :
    (curveOf a b p).Nonsingular (x : ZMod p) (y : ZMod p) ↔
      y * y % p = (x * x * x + a * x + b) % p := by
  rw [← WeierstrassCurve.Affine.equation_iff_nonsingular_of_Δ_ne_zero hv.discriminant_ne_zero,
    curveOf_equation_iff]

theorem ValidCurve.exists_represents [Fact p.Prime] {P : Point} (h : P.OnCurve a b p) :
    ∃ g, Represents a b p P g := by
  cases P with
  | identity => exact ⟨0, rfl⟩
  | affine x y => exact ⟨_, h.1, h.2.1, (hv.nonsingular_iff x y).2 h.2.2, rfl⟩

omit hv in
theorem Represents.onCurve [Fact p.Prime] {P : Point} {g : (curveOf a b p).Point}
    (h : Represents a b p P g) : P.OnCurve a b p := by
  cases P with
  | identity => trivial
  | affine x y =>
    obtain ⟨hx, hy, hn, -⟩ := h
    exact ⟨hx, hy, (curveOf_equation_iff x y).1 hn.1⟩

omit hv in
theorem natCast_zmod_inj {x y : Nat} (hx : x < p) (hy : y < p) (h : (x : ZMod p) = y) : x = y := by
  rw [ZMod.natCast_eq_natCast_iff'] at h
  rwa [Nat.mod_eq_of_lt hx, Nat.mod_eq_of_lt hy] at h

omit hv in
/-- Coordinates below `p`: a group element is represented once. -/
theorem Represents.point_unique [Fact p.Prime] {P Q : Point} {g : (curveOf a b p).Point}
    (hP : Represents a b p P g) (hQ : Represents a b p Q g) : P = Q := by
  cases P with
  | identity =>
    cases Q with
    | identity => rfl
    | affine x y =>
      obtain ⟨-, -, hn, hg⟩ := hQ
      exact absurd (hg.symm.trans hP) (WeierstrassCurve.Affine.Point.some_ne_zero hn)
  | affine x y =>
    obtain ⟨hx, hy, hn, hg⟩ := hP
    cases Q with
    | identity => exact absurd (hg.symm.trans hQ) (WeierstrassCurve.Affine.Point.some_ne_zero hn)
    | affine x' y' =>
      obtain ⟨hx', hy', hn', hg'⟩ := hQ
      rw [hg] at hg'
      injection hg' with h1 h2
      rw [natCast_zmod_inj hx hx' h1, natCast_zmod_inj hy hy' h2]

omit hv in
theorem Represents.element_unique [Fact p.Prime] {P : Point} {g g' : (curveOf a b p).Point}
    (hg : Represents a b p P g) (hg' : Represents a b p P g') : g = g' := by
  cases P with
  | identity => exact hg.trans hg'.symm
  | affine x y =>
    obtain ⟨-, -, _, rfl⟩ := hg
    obtain ⟨-, -, _, rfl⟩ := hg'
    rfl

omit hv in
theorem natCast_emod_zmod {r : Nat} {v : Int} (h : (r : Int) = v % p) : (r : ZMod p) = (v : ZMod p) := by
  have : ((r : Int) : ZMod p) = ((v % p : Int) : ZMod p) := by rw [h]
  simpa using this

omit hv in
theorem inv_zmod [Fact p.Prime] {k : Int} {i : Nat} (h : inv k p = .ok i) :
    (k : ZMod p) ≠ 0 ∧ (i : ZMod p) = (k : ZMod p)⁻¹ := by
  obtain ⟨-, -, hd⟩ := inv_ok_iff.1 h
  have h1 : (k : ZMod p) * i = 1 := by
    have := (ZMod.intCast_zmod_eq_zero_iff_dvd (k * i - 1) p).2 hd
    push_cast at this
    linear_combination this
  have hk : (k : ZMod p) ≠ 0 := by
    intro h0; rw [h0, zero_mul] at h1; exact zero_ne_one h1
  exact ⟨hk, by field_simp; linear_combination h1⟩

/-- `Neg` is the group inverse (R126, R128). -/
theorem ValidCurve.neg_represents [Fact p.Prime] {P : Point} {g : (curveOf a b p).Point}
    (h : Represents a b p P g) : ∃ N, neg P p = .ok N ∧ Represents a b p N (-g) := by
  cases P with
  | identity =>
    refine ⟨_, rfl, ?_⟩
    have : g = 0 := h
    rw [this]
    exact WeierstrassCurve.Affine.Point.neg_zero
  | affine x y =>
    obtain ⟨hx, hy, hn, rfl⟩ := h
    have hp : p ≠ 0 := hv.prime.ne_zero
    have hc := emod_toNat_cast hp (-(y : Int))
    refine ⟨_, neg_affine_ok_iff.2 ⟨hp, _, rfl, hc⟩, hx, emod_toNat_lt hp _, ?_⟩
    have hy' := natCast_emod_zmod hc
    have hneg : (((-(y : Int)) % p).toNat : ZMod p) = (curveOf a b p).negY (x : ZMod p) (y : ZMod p) := by
      rw [hy']; simp [curveOf, WeierstrassCurve.Affine.negY]
    rw [WeierstrassCurve.Affine.Point.neg_some]
    refine ⟨?_, ?_⟩
    · rw [hneg]; exact (WeierstrassCurve.Affine.nonsingular_neg _ _).2 hn
    · congr 1
      exact hneg.symm

/-- Step 4 of `Add` with the group's slope gives the group's sum. -/
theorem ValidCurve.chordPoint_represents [Fact p.Prime] {xP yP xQ yQ l : Nat}
    (hnP : (curveOf a b p).Nonsingular (xP : ZMod p) (yP : ZMod p))
    (hnQ : (curveOf a b p).Nonsingular (xQ : ZMod p) (yQ : ZMod p))
    (hxy : ¬ ((xP : ZMod p) = xQ ∧ (yP : ZMod p) = (curveOf a b p).negY (xQ : ZMod p) (yQ : ZMod p)))
    (hl : (l : ZMod p) = (curveOf a b p).slope (xP : ZMod p) xQ yP yQ) :
    ∃ R, chordPoint l xP yP xQ p = .ok R ∧
      Represents a b p R (.some _ _ hnP + .some _ _ hnQ) := by
  have hp : p ≠ 0 := hv.prime.ne_zero
  have hcx := emod_toNat_cast hp ((l : Int) * l - xP - xQ)
  set xR := (((l : Int) * l - xP - xQ) % p).toNat with hxR
  have hcy := emod_toNat_cast hp ((l : Int) * ((xP : Int) - xR) - yP)
  set yR := (((l : Int) * ((xP : Int) - xR) - yP) % p).toNat with hyR
  refine ⟨_, chordPoint_ok_iff.2 ⟨hp, xR, yR, rfl, hcx, hcy⟩, emod_toNat_lt hp _, emod_toNat_lt hp _, ?_⟩
  have hX : (xR : ZMod p) = (curveOf a b p).addX xP xQ ((curveOf a b p).slope (xP : ZMod p) xQ yP yQ) := by
    rw [natCast_emod_zmod hcx, ← hl]
    simp only [WeierstrassCurve.Affine.addX, curveOf]
    push_cast
    ring
  have hY : (yR : ZMod p) =
      (curveOf a b p).addY xP xQ yP ((curveOf a b p).slope (xP : ZMod p) xQ yP yQ) := by
    rw [natCast_emod_zmod hcy, WeierstrassCurve.Affine.addY, WeierstrassCurve.Affine.negAddY, ← hX, ← hl]
    simp only [WeierstrassCurve.Affine.negY, curveOf]
    push_cast
    ring
  rw [WeierstrassCurve.Affine.Point.add_some hxy]
  refine ⟨?_, ?_⟩
  · rw [hX, hY]; exact WeierstrassCurve.Affine.nonsingular_add hnP hnQ hxy
  · congr 1
    · exact hX.symm
    · exact hY.symm

/-- `Add` is the group law (R121, R128). -/
theorem ValidCurve.add_represents [Fact p.Prime] {P Q : Point} {g h : (curveOf a b p).Point}
    (hP : Represents a b p P g) (hQ : Represents a b p Q h) :
    ∃ R, add P Q a p = .ok R ∧ Represents a b p R (g + h) := by
  cases P with
  | identity =>
    have : g = 0 := hP
    exact ⟨Q, by simp, by rwa [this, zero_add]⟩
  | affine xP yP =>
  cases Q with
  | identity =>
    have : h = 0 := hQ
    exact ⟨.affine xP yP, by simp, by rwa [this, add_zero]⟩
  | affine xQ yQ =>
  obtain ⟨hxP, hyP, hnP, rfl⟩ := hP
  obtain ⟨hxQ, hyQ, hnQ, rfl⟩ := hQ
  have hneg : ∀ x y : Nat, (curveOf a b p).negY (x : ZMod p) (y : ZMod p) = -(y : ZMod p) := by
    intro x y; simp [curveOf, WeierstrassCurve.Affine.negY]
  have hodd : p ≠ 2 := by have := hv.large; omega
  obtain ⟨R, hR, -⟩ := add_total a hv.prime hodd
    (P := .affine xP yP) (Q := .affine xQ yQ) ⟨hxP, hyP⟩ ⟨hxQ, hyQ⟩
  rw [hR]
  refine ⟨R, rfl, ?_⟩
  rw [add_affine] at hR
  split at hR
  · next heq =>
    obtain ⟨rfl, rfl⟩ := heq
    split at hR
    · next hy =>
      subst hy; cases hR
      exact WeierstrassCurve.Affine.Point.add_of_Y_eq rfl (by rw [hneg]; simp)
    · next hy =>
      obtain ⟨l, hl, hc⟩ := bind_ok_iff.1 hR
      obtain ⟨-, i, hi, hli⟩ := doublingSlope_ok_iff.1 hl
      obtain ⟨hk, hi'⟩ := inv_zmod hi
      push_cast at hk hi'
      have hy2 : (yP : ZMod p) ≠ (curveOf a b p).negY (xP : ZMod p) (yP : ZMod p) := by
        rw [hneg]; intro h; apply hk; linear_combination h
      have hslope : (l : ZMod p) = (curveOf a b p).slope (xP : ZMod p) xP yP yP := by
        rw [WeierstrassCurve.Affine.slope_of_Y_ne rfl hy2, natCast_emod_zmod hli, hneg]
        push_cast
        rw [hi']
        simp only [curveOf]
        rw [div_eq_mul_inv]
        congr 1
        · ring
        · congr 1; ring
      obtain ⟨S, hS, hrep⟩ := hv.chordPoint_represents hnP hnQ (fun h => hy2 h.2) hslope
      rw [hS] at hc; cases hc
      exact hrep
  · next hne =>
    split at hR
    · next hx =>
      subst hx; cases hR
      refine WeierstrassCurve.Affine.Point.add_of_Y_eq rfl ?_
      rcases WeierstrassCurve.Affine.Y_eq_of_X_eq hnP.1 hnQ.1 rfl with h | h
      · exact absurd ⟨rfl, natCast_zmod_inj hyP hyQ h⟩ hne
      · exact h
    · next hx =>
      have hx' : (xP : ZMod p) ≠ xQ := fun h => hx (natCast_zmod_inj hxP hxQ h)
      obtain ⟨l, hl, hc⟩ := bind_ok_iff.1 hR
      obtain ⟨-, i, hi, hli⟩ := chordSlope_ok_iff.1 hl
      obtain ⟨hk, hi'⟩ := inv_zmod hi
      push_cast at hk hi'
      have hslope : (l : ZMod p) = (curveOf a b p).slope (xP : ZMod p) xQ yP yQ := by
        rw [WeierstrassCurve.Affine.slope_of_X_ne hx', natCast_emod_zmod hli]
        push_cast
        rw [hi', ← neg_div_neg_eq, div_eq_mul_inv]
        congr 1
        · ring
        · congr 1; ring
      obtain ⟨S, hS, hrep⟩ := hv.chordPoint_represents hnP hnQ (fun h => hx' h.1) hslope
      rw [hS] at hc; cases hc
      exact hrep

theorem ValidCurve.mulLoop_represents [Fact p.Prime] (fuel : Nat) :
    ∀ (R A : Point) (K : Nat) (g h : (curveOf a b p).Point), K < 2 ^ fuel →
      Represents a b p R g → Represents a b p A h →
      ∃ S, mulLoop a p fuel R A K = .ok S ∧ Represents a b p S (g + K • h) := by
  induction fuel with
  | zero =>
    intro R A K g h hK hR _
    have : K = 0 := by omega
    subst this
    exact ⟨R, rfl, by simpa using hR⟩
  | succ fuel ih =>
    intro R A K g h hK hR hA
    by_cases h0 : K = 0
    · subst h0; exact ⟨R, mulLoop_zero_scalar .., by simpa using hR⟩
    rw [mulLoop_succ a p fuel R A h0]
    obtain ⟨A', hA', hA'r⟩ := hv.add_represents hA hA
    have : ∃ R', (if K % 2 = 1 then add R A a p else .ok R) = .ok R' ∧
        Represents a b p R' (g + (K % 2) • h) := by
      split
      · next h1 => rw [h1, one_nsmul]; exact hv.add_represents hR hA
      · next h1 =>
        rw [show K % 2 = 0 by omega, zero_nsmul, add_zero]; exact ⟨R, rfl, hR⟩
    obtain ⟨R', hR', hR'r⟩ := this
    obtain ⟨S, hS, hSr⟩ := ih R' A' (K / 2) _ _ (by omega) hR'r hA'r
    refine ⟨S, bind_ok_iff.2 ⟨R', hR', bind_ok_iff.2 ⟨A', hA', hS⟩⟩, ?_⟩
    have : g + K • h = g + (K % 2) • h + (K / 2) • (h + h) := by
      rw [← two_nsmul, ← mul_nsmul, add_assoc, ← add_nsmul, Nat.mod_add_div]
    rwa [this]

/-- `Mul` is the multiple in the group (R136, R140). -/
theorem ValidCurve.mul_represents [Fact p.Prime] (k : Nat) {P : Point} {g : (curveOf a b p).Point}
    (hP : Represents a b p P g) : ∃ R, mul k P a p = .ok R ∧ Represents a b p R (k • g) := by
  cases P with
  | identity =>
    have : g = 0 := hP
    exact ⟨_, mul_identity .., by rw [this, nsmul_zero]; rfl⟩
  | affine x y =>
    by_cases hk : k = 0
    · subst hk; exact ⟨_, mul_zero .., by rw [zero_nsmul]; rfl⟩
    rw [mul_affine hk]
    obtain ⟨S, hS, hr⟩ := hv.mulLoop_represents (Nat.log2 k + 1) .identity (.affine x y) k 0 g
      Nat.lt_log2_self rfl hP
    exact ⟨S, hS, by rwa [zero_add] at hr⟩

end
end Sys2Proof.Machine
end

