-- ==== Sys2Proof/Laws/PerInstr.lean ====
section
/-! SUPPORT. Laws/PerInstr: the statements made of every command, one lemma per constructor. -/

/-- Bits 8:0 of a packed word are 0 (spec/30_encoding.md R92). -/
theorem Sys2Proof.packWord_low (op : Nat) (hop : op < 256) (r0 r1 r2 r3 r4 : Fin 8) :
    (Sys2Proof.packWord op r0 r1 r2 r3 r4).toNat % 2 ^ 9 = 0 := by
  rw [packWord_toNat op hop]; omega

namespace Sys2Proof.Laws.ReservedZero

/-- Bits 8:0 of every command's word are 0 (spec/30_encoding.md R92). -/
def Statement (i : Instr) : Prop := (encode i).toNat % 2 ^ 9 = 0

theorem minv (sd sk sm : ScReg) : Statement (.minv sd sk sm) := packWord_low _ (by decide) ..
theorem padd (pd pa pb : PtReg) : Statement (.padd pd pa pb) := packWord_low _ (by decide) ..
theorem pneg (pd pa : PtReg) : Statement (.pneg pd pa) := packWord_low _ (by decide) ..
theorem pmul (pd : PtReg) (sk : ScReg) (pa : PtReg) : Statement (.pmul pd sk pa) :=
  packWord_low _ (by decide) ..
theorem egkey (pd : PtReg) (sb : ScReg) : Statement (.egkey pd sb) := packWord_low _ (by decide) ..
theorem egenc (pc1 pc2 pm : PtReg) (sk : ScReg) (pb : PtReg) :
    Statement (.egenc pc1 pc2 pm sk pb) := packWord_low _ (by decide) ..
theorem egdec (pd pc1 pc2 : PtReg) (sb : ScReg) : Statement (.egdec pd pc1 pc2 sb) :=
  packWord_low _ (by decide) ..
theorem dsakg (sd : ScReg) (pq : PtReg) : Statement (.dsakg sd pq) := packWord_low _ (by decide) ..
theorem dsasgn (sr ss sz sd : ScReg) : Statement (.dsasgn sr ss sz sd) :=
  packWord_low _ (by decide) ..
theorem dsavfy (sr ss sz : ScReg) (pq : PtReg) : Statement (.dsavfy sr ss sz pq) :=
  packWord_low _ (by decide) ..

end Sys2Proof.Laws.ReservedZero
end

