-- ==== Sys2Proof/Laws/Step.lean ====
section
/-! SUPPORT. Laws/Step: everything a host write, a move of the sequencer and a step can do, said once
(spec/20_memory.md R63; spec/30_encoding.md R91; spec/70_reset_and_hazards.md R224). -/

namespace Sys2Proof.Machine

/-- Everything `HostWrite` can do (R63). The last case covers the data registers. -/
theorem hostWrite_cases (r : RegNum) (v : Nat) (s : State) :
    (r = 0x01 ∧ hostWrite r v s = s.acknowledge v) ∨
    (r = 0x04 ∧ hostWrite r v s = { s with ctrl := Ctrl.ofValue v }) ∨
    hostWrite r v s = s.dropWrite ∨
    (s.status.busy = false ∧ s.status.err = false ∧ r = 0x00 ∧
      hostWrite r v s = s.accept (BitVec.ofNat 32 v)) ∨
    (s.status.busy = false ∧ ∃ reg, regMap r = some reg ∧ reg.readOnly = false ∧ reg ≠ .cmd ∧
      reg ≠ .status ∧ reg ≠ .ctrl ∧ hostWrite r v s = s.writeReg reg v) := by
  have h1 : ∀ r : RegNum, regMap r = some .status → r = 0x01 := by decide
  have h4 : ∀ r : RegNum, regMap r = some .ctrl → r = 0x04 := by decide
  have h0 : ∀ r : RegNum, regMap r = some .cmd → r = 0x00 := by decide
  unfold hostWrite
  split
  · next h => exact .inl ⟨h1 r h, rfl⟩
  · next h => exact .inr (.inl ⟨h4 r h, rfl⟩)
  · exact .inr (.inr (.inl rfl))
  · next reg hs hc h =>
    split
    · exact .inr (.inr (.inl rfl))
    · next hro =>
      split
      · exact .inr (.inr (.inl rfl))
      · next hb =>
        split
        · unfold State.issue
          split
          · exact .inr (.inr (.inl rfl))
          · next he => exact .inr (.inr (.inr (.inl ⟨by simpa using hb, by simpa using he, h0 r h, rfl⟩)))
        · next hcmd =>
          exact .inr (.inr (.inr (.inr ⟨by simpa using hb, reg, h, by simpa using hro,
            hcmd, hs, hc, rfl⟩)))

/-- Everything a move of the sequencer can do (R91). -/
theorem sequencer_cases {s t : State} (h : sequencer s = .next t) :
    (s.rstN && s.status.busy) = false ∧ t = s ∨
    (s.rstN = true ∧ s.status.busy = true ∧
      ((∃ e, decode s.cmd = .error e ∧ t = s.takeFault .illegal) ∨
       ∃ i, decode s.cmd = .ok i ∧ exec i s = .next t)) := by
  unfold sequencer at h
  split at h
  · next hb =>
    simp only [Bool.and_eq_true] at hb
    refine .inr ⟨hb.1, hb.2, ?_⟩
    split at h
    · next i hi => exact .inr ⟨i, hi, h⟩
    · next e he => exact .inl ⟨e, he, by simpa using h.symm⟩
  · next hb => exact .inl ⟨by simpa using hb, by simpa using h.symm⟩

/-- Everything a step can do. -/
theorem step_cases {s t : State} (h : step s = .next t) :
    (s.inputs = [] ∧ sequencer s = .next t) ∨
    ∃ i rest, s.inputs = i :: rest ∧
      ((i = .quiet ∧ sequencer { s with inputs := rest } = .next t) ∨
       (∃ r, i = .read r ∧ t = portRead r { s with inputs := rest }) ∨
       (∃ r v, i = .write r v ∧ t = portWrite r v { s with inputs := rest }) ∨
       (∃ c, i = .answer c ∧ t = State.offerAnswer c { s with inputs := rest }) ∨
       (i = .rstN true ∧ t = { s with inputs := rest, rstN := true }) ∨
       (i = .rstN false ∧ t = State.assertReset { s with inputs := rest })) := by
  unfold step at h
  split at h
  · next e => exact .inl ⟨e, h⟩
  · next rest e => exact .inr ⟨_, rest, e, .inl ⟨rfl, h⟩⟩
  · next r rest e => exact .inr ⟨_, rest, e, .inr (.inl ⟨r, rfl, by simpa using h.symm⟩)⟩
  · next r v rest e =>
    exact .inr ⟨_, rest, e, .inr (.inr (.inl ⟨r, v, rfl, by simpa using h.symm⟩))⟩
  · next c rest e =>
    exact .inr ⟨_, rest, e, .inr (.inr (.inr (.inl ⟨c, rfl, by simpa using h.symm⟩)))⟩
  · next l rest e =>
    have h' := Host.Outcome.next.inj h
    refine .inr ⟨_, rest, e, .inr (.inr (.inr (.inr ?_)))⟩
    cases l with
    | true => exact .inl ⟨rfl, h'.symm⟩
    | false => exact .inr ⟨rfl, h'.symm⟩

end Sys2Proof.Machine
end

