-- ==== Sys2Proof/Tests/Slice0.lean ====
section
/-! SUPPORT. Tests/Slice0: the model's own tests, whose expected results are the vectors of
spec/95_test_vectors.md (named by their ids) unless another source is named; and for every obligation with
hypotheses a witness that meets them. -/

set_option maxRecDepth 4000

namespace Sys2Proof.Tests
open Sys2Proof.Machine

/-! ### Helpers -/

/-- The next state of an outcome; every outcome here is one. -/
def after : Outcome → State
  | .next t => t
  | .fault _ => State.reset
  | .refused _ => State.reset

def isNext : Outcome → Bool
  | .next _ => true
  | .fault _ => false
  | .refused _ => false

theorem next_of_isNext {o : Outcome} (h : isNext o = true) : o = .next (after o) := by
  cases o <;> first | rfl | cases h

/-- Setup T: the toy curve of the spec with base point `(5, 1)` of order 19. -/
def toy : State :=
  { State.reset with curveP := 17, curveA := 2, curveB := 2, curveN := 19, g := ⟨false, 5, 1⟩ }

/-- `SC0` to `SC3` of the toy state. -/
def toySc (a b c d : Nat) : State :=
  toy.setScalar 0 a |>.setScalar 1 b |>.setScalar 2 c |>.setScalar 3 d

/-- `PT0` and `PT1` of a state. -/
def pts (P Q : Point) (s : State) : State := s.setPoint 0 P |>.setPoint 1 Q

/-- One step that runs the word. -/
def run (w : Nat) (s : State) : State := after (step (s.withFetchWord 32 w))

/-! ### WellFormed: each check refuses an ill-formed command (R97) -/

theorem test_egenc_two_destinations_refused :
    (Instr.egenc 2 2 0 1 1).wellFormed = false := by decide
theorem test_dsasgn_two_destinations_refused :
    (Instr.dsasgn 2 2 1 0).wellFormed = false := by decide
theorem test_dsakg_destinations_of_two_files : (Instr.dsakg 0 0).wellFormed = true := by decide

/-! ### Decode: section 2.6, and bits written out from R92, R93 -/

theorem test_decode_minv : decode 0x01408000 = .ok (.minv 2 0 1) := by decide
/-- `OP = 00010000`, `F0 = 011`, `F1 = 001`, `F2 = 010`, the rest 0. -/
theorem test_decode_padd :
    decode 0b00010000_011_001_010_000_000_000000000#32 = .ok (.padd 3 1 2) := by decide
theorem test_decode_padd_highest : decode 0x10FF8000 = .ok (.padd 7 7 7) := by decide
theorem test_decode_pneg : decode 0x11200000 = .ok (.pneg 1 0) := by decide
theorem test_decode_pmul : decode 0x20240000 = .ok (.pmul 1 1 0) := by decide
theorem test_decode_egkey : decode 0x30200000 = .ok (.egkey 1 0) := by decide
/-- `OP = 00110001`, `F0 = 010`, `F1 = 011`, `F2 = 000`, `F3 = 001`, `F4 = 001`, `Z = 0`. -/
theorem test_decode_egenc :
    decode 0b00110001_010_011_000_001_001_000000000#32 = .ok (.egenc 2 3 0 1 1) := by decide
theorem test_decode_egdec : decode 0x32898000 = .ok (.egdec 4 2 3 0) := by decide
theorem test_decode_dsakg : decode 0x40000000 = .ok (.dsakg 0 0) := by decide
/-- `OP = 01000001`, `F0 = 010`, `F1 = 011`, `F2 = 001`, `F3 = 000`, `F4 = 0`, `Z = 0`. -/
theorem test_decode_dsasgn :
    decode 0b01000001_010_011_001_000_000_000000000#32 = .ok (.dsasgn 2 3 1 0) := by decide
theorem test_decode_dsavfy : decode 0x424C8000 = .ok (.dsavfy 2 3 1 0) := by decide
theorem test_decode_zero : decode 0x00000000 = .error .unassignedOpcode := by decide
theorem test_decode_ones : decode 0xFFFFFFFF = .error .unassignedOpcode := by decide
theorem test_decode_reserved_bit : decode 0x01408001 = .error .nonzeroReserved := by decide
theorem test_decode_unused_field : decode 0x11208000 = .error .nonzeroReserved := by decide
theorem test_decode_egenc_duplicate : decode 0x31481200 = .error .duplicateDestination := by decide
theorem test_decode_dsasgn_duplicate : decode 0x41488000 = .error .duplicateDestination := by decide
/-- R90: data bits above 31 are ignored. -/
theorem test_issue_truncates :
    (hostWrite 0x00 (2 ^ 32 + 0x01408000) State.reset).cmd = 0x01408000 := by decide

/-! ### One step per command -/

/-- V1-1. -/
theorem test_minv : (run 0x01408000 (toySc 3 19 0 0)).scalar 2 = 13 := by decide
/-- V1-4, P4: the fault leaves `SC2` and records cause and word. -/
theorem test_minv_fault :
    let t := run 0x01408000 (toySc 4 8 0xAA 0)
    t.scalar 2 = 0xAA ∧ t.status.value = 0x06 ∧ t.errcode = 1 ∧ t.errcmd = 0x01408000 := by decide
/-- V2-5. -/
theorem test_padd :
    (run 0x10408000 (pts (.affine 5 1) (.affine 6 3) toy)).pointReg 2 = ⟨false, 10, 6⟩ := by decide
/-- V2-6: the identity is written in canonical form. -/
theorem test_padd_inverse :
    (run 0x10408000 (pts (.affine 5 1) (.affine 5 16) toy)).pointReg 2 = ⟨true, 0, 0⟩ := by decide
/-- Section 2.2: `x` is copied unreduced, `y` is reduced. -/
theorem test_pneg :
    (run 0x11200000 (pts (.affine 22 35) .identity toy)).pointReg 1 = ⟨false, 22, 16⟩ := by decide
/-- V3-9. -/
theorem test_pmul :
    (run 0x20200000 (pts (.affine 5 1) .identity (toySc 255 0 0 0))).pointReg 1 = ⟨false, 13, 7⟩ := by
  decide
/-- V3-15: the unused last doubling faults. -/
theorem test_pmul_unused_doubling :
    (run 0x20200000 (pts (.affine 2 3) .identity { toySc 1 0 0 0 with curveP := 15 })).status.err
      = true := by decide
/-- Section 2.4, `b = 7`. -/
theorem test_egkey : (run 0x30200000 (toySc 7 0 0 0)).pointReg 1 = ⟨false, 0, 6⟩ := by decide
/-- V4-1. -/
theorem test_egenc :
    let t := run 0x314C1200 (pts (.affine 9 16) (.affine 0 6) (toySc 7 3 0 0))
    t.pointReg 2 = ⟨false, 10, 6⟩ ∧ t.pointReg 3 = ⟨false, 0, 6⟩ := by decide
/-- V4-1. -/
theorem test_egdec :
    (run 0x32898000 (toySc 7 3 0 0 |>.setPoint 2 (.affine 10 6) |>.setPoint 3 (.affine 0 6))).pointReg 4
      = ⟨false, 9, 16⟩ := by decide
/-- Section 2.5: draw 5. -/
theorem test_dsakg :
    let t := run 0x40000000 { toy with entropy := [5] }
    t.scalar 0 = 5 ∧ t.pointReg 0 = ⟨false, 9, 16⟩ ∧ t.retryCount = 1 ∧ t.entropy = [] := by decide
/-- V5-1. -/
theorem test_dsasgn :
    let t := run 0x414C8000 { toySc 2 10 0 0 with entropy := [3] }
    t.scalar 2 = 10 ∧ t.scalar 3 = 10 ∧ t.retryCount = 1 ∧ t.status.value = 0x02 := by decide
/-- V5-3, first draw: `r = 0` is rejected and the command goes on. -/
theorem test_dsasgn_rejects :
    let t := run 0x414C8000 { toySc 2 10 111 222 with entropy := [7, 12, 5] }
    t.scalar 2 = 111 ∧ t.status.value = 0x01 ∧ t.attempts = 1 ∧ t.entropy = [12, 5] := by decide
/-- V5-10. -/
theorem test_dsavfy :
    (run 0x424C8000 (pts (.affine 6 3) .identity (toySc 2 10 10 10))).status.value = 0x12 := by decide
/-- V5-19. -/
theorem test_dsavfy_range :
    (run 0x424C8000 (pts (.affine 6 3) .identity (toySc 2 10 19 10))).status.value = 0x22 := by decide

/-! ### Single steps of the host port -/

/-- P4: a write to `CMD` while `ERR = 1` is dropped and sets `HERR`. -/
theorem test_issue_refused_after_fault :
    (after (step { run 0x01408000 (toySc 4 8 0xAA 0) with inputs := [.write 0 0x01408000] })).status.value
      = 0x0E := by decide
/-- P4: the acknowledge clears `DONE`, `ERR`, `HERR`. -/
theorem test_acknowledge :
    (hostWrite 0x01 0x0E { toy with status := ⟨false, true, true, true, false, false⟩ }).status.value
      = 0x00 := by decide
/-- P1: the numbers of `PT1`. -/
theorem test_point_numbers :
    let s := toy.setPoint 1 (.affine 6 3)
    hostRead 0x24 s = 6 ∧ hostRead 0x25 s = 3 ∧ hostRead 0x26 s = 0 ∧ hostRead 0x27 s = 0 := by decide
/-- A presented read latches its value (R62, R81). -/
theorem test_read_step :
    (after (step { toy with inputs := [.read 0x0B] })).hRdata = 19 := by decide
/-- R210: no write is performed while `rst_n = 0`. -/
theorem test_no_write_in_reset :
    (after (step { State.reset.assertReset with inputs := [.write 0x10 5] })).scalar 0 = 0 := by decide
/-- R184: a word of no command. -/
theorem test_illegal_word :
    let t := run 0x50000000 toy
    t.errcode = 3 ∧ t.errcmd = 0x50000000 ∧ t.status.value = 0x06 := by decide

/-! ### Witnesses: states that meet the hypotheses of the obligations -/

theorem fits_of_lt {v : Nat} (h : v < 2 ^ 32) : fitsIn Config.W v :=
  lt_of_lt_of_le h (Nat.pow_le_pow_right (by decide) (by unfold Config.W; omega))

/-- What is small fits: the checks of `Inv` that `decide` can make on a concrete state. -/
theorem inv_of_checks {s : State}
    (hsc : ∀ i, s.scalar i < 2 ^ 32)
    (hpt : ∀ i, (s.pointReg i).x < 2 ^ 32 ∧ (s.pointReg i).y < 2 ^ 32)
    (hcv : s.curveP < 2 ^ 32 ∧ s.curveA < 2 ^ 32 ∧ s.curveB < 2 ^ 32 ∧ s.curveN < 2 ^ 32 ∧
      s.g.x < 2 ^ 32 ∧ s.g.y < 2 ^ 32 ∧ s.hRdata < 2 ^ 32)
    (hin : s.inputs = [] ∨ s.inputs = [.quiet]) (hen : ∀ c ∈ s.entropy, c < 2 ^ 32)
    (hrq : s.rndReq = none ∨ (s.rndReq = some (s.curveN - 1) ∧ 2 ≤ s.curveN ∧ 1 ≤ s.attempts))
    (hst : s.status.busy = true → s.status.err = false ∧ s.status.done = false)
    (hid : s.status.busy = false → s.attempts = 0 ∧ s.rndReq = none)
    (hv : s.status.v = true → s.status.rnge = false) (hc : s.errcode.toNat ≤ 4)
    (he : s.status.err = true → s.errcode ≠ 0#4)
    (hcap : s.status.busy = true → s.retryLimit ≠ 0#16 → s.attempts ≤ s.retryLimit.toNat)
    (hr : s.rstN = false → s = s.assertReset) : s.Inv := by
  refine ⟨⟨fun i => fits_of_lt (hsc i), fun i => ⟨fits_of_lt (hpt i).1, fits_of_lt (hpt i).2⟩,
    fits_of_lt hcv.1, fits_of_lt hcv.2.1, fits_of_lt hcv.2.2.1, fits_of_lt hcv.2.2.2.1,
    ⟨fits_of_lt hcv.2.2.2.2.1, fits_of_lt hcv.2.2.2.2.2.1⟩, fun b hb => ?_,
    fits_of_lt hcv.2.2.2.2.2.2, fun i hi => ?_, fun c hc => fits_of_lt (hen c hc)⟩,
    hst, hid, hv, hc, he, hcap, fun b hb => ?_, hr⟩
  · rcases hrq with h | ⟨h, -, -⟩ <;> rw [h] at hb <;> cases hb
    exact fits_of_lt (by omega)
  · rcases hin with h | h <;> rw [h] at hi
    · cases hi
    · rw [List.mem_singleton.1 hi]; trivial
  · rcases hrq with h | ⟨h, h2, h3⟩ <;> rw [h] at hb <;> cases hb
    exact ⟨h2, rfl, h3⟩

/-- `DSASGN sc2, sc3, sc1, sc0` just accepted, with these answers on offer (P3, P5). -/
def signing (answers : List Nat) : State :=
  { (toySc 2 10 0 0).accept 0x414C8000 with entropy := answers }

/-- The same after its first request went unanswered. -/
def waiting : State := { signing [] with attempts := 1, rndReq := some 18 }

/-- `MINV` of 4 modulo 8 has faulted. -/
def faulted : State := run 0x01408000 (toySc 4 8 0xAA 0)

/-- A verification has passed (V5-10). -/
def verified : State := run 0x424C8000 (pts (.affine 6 3) .identity (toySc 2 10 10 10))

theorem inv_signing : (signing [3]).Inv := by
  apply inv_of_checks <;> decide
theorem inv_waiting : waiting.Inv := by
  apply inv_of_checks <;> decide
theorem inv_faulted : faulted.Inv := by
  apply inv_of_checks <;> decide

theorem valid_toy : ValidCurve 2 2 17 := ⟨by norm_num, by decide, by decide⟩
theorem validGroup_toy : ValidGroup 2 2 17 19 (.affine 5 1) :=
  ⟨valid_toy, ⟨by decide, by decide, by decide⟩, by decide, by norm_num, by decide⟩

/-! #### Reset, encoding, step -/

theorem witness_ResetGivesResetValues :
    let s : State := { signing [3] with inputs := [.rstN false, .rstN true] }
    s.inputs = .rstN false :: [.rstN true] ∧ [Input.rstN true] = .rstN true :: [] := by decide

theorem witness_StepKeepsInvariant :
    (signing [3]).Inv ∧ ∃ t, step (signing [3]) = .next t :=
  ⟨inv_signing, _, next_of_isNext (by decide)⟩

theorem witness_NothingHappensInReset :
    State.reset.assertReset.Inv ∧ State.reset.assertReset.rstN = false :=
  ⟨by apply inv_of_checks <;> decide, rfl⟩

theorem witness_DecodeInvertsEncode :
    (Instr.egenc 2 3 0 1 1).wellFormed = true ∧ (Instr.dsasgn 7 0 7 7).wellFormed = true := by decide

theorem witness_DecodedWordIsItsEncoding :
    decode 0x314C1200 = .ok (.egenc 2 3 0 1 1) := by decide

theorem witness_OpcodeRowsAreDisjoint :
    let x : OpcodeRow := ⟨.minv, 0x01000000, 0xFF007FFF⟩
    x ∈ opcodeRows ∧ x.selects 0x01FF8000 = true := by decide

theorem witness_StepRunsTheDecodedCommand :
    let s := signing [3]
    s.rstN = true ∧ s.status.busy = true ∧ decode s.cmd = .ok (.dsasgn 2 3 1 0) ∧ s.inputs = [] ∧
      { s with inputs := [.quiet] }.inputs = .quiet :: [] := by decide

theorem encode_ne_of_low {c : CmdWord} (h : c.toNat % 2 ^ 9 ≠ 0) (i : Instr) : encode i ≠ c := by
  rintro rfl
  cases i <;> exact h (packWord_low _ (by decide) ..)

/-- `MINV sc2, sc0, sc1` with reserved bit 0 set (section 2.6). -/
theorem witness_IllegalWordTakesTheFault :
    let s := toy.accept 0x01408001
    s.rstN = true ∧ s.status.busy = true ∧ s.inputs = [] ∧
      ∀ i : Instr, i.wellFormed = true → encode i ≠ s.cmd :=
  ⟨rfl, rfl, rfl, fun i _ => encode_ne_of_low (by decide) i⟩

theorem witness_HostTransactionIsOneStep :
    toy.rstN = true ∧ { toy with inputs := [.read 0x0B] }.inputs = .read 0x0B :: [] ∧
      { toy with inputs := [.write 0x10 7] }.inputs = .write 0x10 7 :: [] ∧
      toy.inputs = [] ∧ toy.status.busy = false := by decide

theorem witness_NothingStopsTheMachine :
    (Instr.egenc 2 2 0 1 1).wellFormed = false ∧ (Instr.dsasgn 2 2 1 0).wellFormed = false := by decide

/-! #### Host port -/

theorem witness_CmdWriteIsAcceptedOrDropped :
    (toy.status.busy = false ∧ toy.status.err = false) ∧ (signing []).status.busy = true ∧
      faulted.status.err = true := by decide

theorem witness_BusyWritesAreDropped :
    (signing []).status.busy = true ∧ (0x00 : RegNum) ≠ 0x01 ∧ (0x00 : RegNum) ≠ 0x04 ∧
      (0x3F : RegNum) ≠ 0x01 ∧ (0x3F : RegNum) ≠ 0x04 := by decide

theorem witness_UnmappedAndReadOnlyWritesAreDropped :
    unmappedNumber 0x07 ∧ unmappedNumber 0x0F ∧ unmappedNumber 0x18 ∧ unmappedNumber 0x1F ∧
      unmappedNumber 0x23 ∧ unmappedNumber 0x3F ∧ ¬ unmappedNumber 0x02 ∧ ¬ unmappedNumber 0x06 := by
  unfold unmappedNumber; decide

/-- Idle data numbers and the ends of the range of `W`-bit data. -/
theorem witness_WrittenRegisterReadsBack :
    toy.status.busy = false ∧ dataNumber 0x05 ∧ dataNumber 0x08 ∧ dataNumber 0x0E ∧
      dataNumber 0x10 ∧ dataNumber 0x17 ∧ dataNumber 0x20 ∧ dataNumber 0x22 ∧ dataNumber 0x3E ∧
      (0x21 : RegNum) ≠ 0x20 ∧ fitsIn Config.W 0 ∧ fitsIn Config.W (2 ^ 32 - 1) :=
  ⟨by decide, .inl rfl, .inr (.inl (by decide)), .inr (.inl (by decide)), .inr (.inr (.inl (by decide))),
    .inr (.inr (.inl (by decide))), .inr (.inr (.inr (by decide))), .inr (.inr (.inr (by decide))),
    .inr (.inr (.inr (by decide))), by decide, Nat.two_pow_pos _, fits_of_lt (by decide)⟩

/-- The first and the last number of each indexed clause of the same statement, and the numbers between. -/
theorem witness_WrittenRegisterReadsBack_numbers :
    (∀ r : RegNum, (0x08 ≤ r.val ∧ r.val ≤ 0x0E) → dataNumber r) ∧
      (0x10 : RegNum).val = 0x10 + (0 : ScReg).val ∧ (0x17 : RegNum).val = 0x10 + (7 : ScReg).val ∧
      (0x20 : RegNum).val = 0x20 + 4 * (0 : PtReg).val ∧ (0x3C : RegNum).val = 0x20 + 4 * (7 : PtReg).val ∧
      (0x21 : RegNum).val = 0x21 + 4 * (0 : PtReg).val ∧ (0x3D : RegNum).val = 0x21 + 4 * (7 : PtReg).val ∧
      (0x22 : RegNum).val = 0x22 + 4 * (0 : PtReg).val ∧ (0x3E : RegNum).val = 0x22 + 4 * (7 : PtReg).val ∧
      dataNumber 0x3C ∧ dataNumber 0x3D ∧ dataNumber 0x21 := by
  unfold dataNumber; decide

theorem witness_AcknowledgeReopensTheMachine :
    faulted.status.busy = false ∧ (0x04).testBit 2 = true := by decide

/-! #### MIE, APA -/

/-- V1-1, V1-6 (`m = 1`), V1-4, V1-9 (`m = 0`). -/
theorem witness_MinvWritesTheInverse :
    ((toySc 3 19 0 0).scalar 1 ≠ 0 ∧ Nat.gcd ((toySc 3 19 0 0).scalar 0) ((toySc 3 19 0 0).scalar 1) = 1) ∧
    ((toySc 0 1 0 0).scalar 1 ≠ 0 ∧ Nat.gcd ((toySc 0 1 0 0).scalar 0) ((toySc 0 1 0 0).scalar 1) = 1) ∧
    Nat.gcd ((toySc 4 8 0 0).scalar 0) ((toySc 4 8 0 0).scalar 1) ≠ 1 ∧
    (toySc 3 0 0 0).scalar 1 = 0 := by decide

/-- V2-1, V2-2, V2-6, V2-16. -/
theorem witness_PaddWithoutArithmetic :
    (pts .identity (.affine 5 1) toy).point 0 = .identity ∧
    (pts (.affine 5 1) .identity toy).point 1 = .identity ∧
    ((pts (.affine 5 1) (.affine 5 16) toy).point 0 = .affine 5 1 ∧
      (pts (.affine 5 1) (.affine 5 16) toy).point 1 = .affine 5 16 ∧ 1 ≠ 16) ∧
    ((pts (.affine 0 0) (.affine 0 0) toy).point 0 = .affine 0 0 ∧
      (pts (.affine 0 0) (.affine 0 0) toy).point 1 = .affine 0 0) := by decide

/-- V2-4; and `p = 1`. -/
theorem witness_PaddDoubles :
    let s := pts (.affine 5 1) (.affine 5 1) toy
    s.point 0 = .affine 5 1 ∧ s.point 1 = .affine 5 1 ∧ 1 ≠ 0 ∧ s.curveP ≠ 0 ∧
      Nat.gcd (2 * 1) s.curveP = 1 ∧
      { s with curveP := 1 }.curveP ≠ 0 ∧ Nat.gcd (2 * 1) { s with curveP := 1 }.curveP = 1 := by decide

/-- V2-5 in both orders, V2-24 (`p = 1`). -/
theorem witness_PaddAddsDistinctPoints :
    let s := pts (.affine 5 1) (.affine 6 3) toy
    s.point 0 = .affine 5 1 ∧ s.point 1 = .affine 6 3 ∧ s.curveP ≠ 0 ∧
      Int.gcd ((6 : Nat) - (5 : Nat)) s.curveP = 1 ∧ Int.gcd ((5 : Nat) - (6 : Nat)) s.curveP = 1 ∧
      Int.gcd ((6 : Nat) - (5 : Nat)) (1 : Nat) = 1 := by decide

/-- V2-15, V2-22 (`p = 0`), V2-11, V2-21 (`p = 0`). -/
theorem witness_PaddFaultsWithoutInverse :
    ((pts (.affine 5 17) (.affine 5 17) toy).point 0 = .affine 5 17 ∧
      (pts (.affine 5 17) (.affine 5 17) toy).point 1 = .affine 5 17 ∧ Nat.gcd (2 * 17) toy.curveP ≠ 1) ∧
    ((pts (.affine 5 1) (.affine 22 3) toy).point 0 = .affine 5 1 ∧
      (pts (.affine 5 1) (.affine 22 3) toy).point 1 = .affine 22 3 ∧
      Int.gcd ((22 : Nat) - (5 : Nat)) toy.curveP ≠ 1) ∧
    { toy with curveP := 0 }.curveP = 0 := by decide

/-- Section 2.2: `Id`, `(5, 17)` for `p = 17`, `p = 1`, `p = 0`. -/
theorem witness_PnegNegates :
    (pts .identity .identity toy).point 0 = .identity ∧
    ((pts (.affine 5 17) .identity toy).point 0 = .affine 5 17 ∧ toy.curveP ≠ 0) ∧
    { toy with curveP := 1 }.curveP ≠ 0 ∧ { toy with curveP := 0 }.curveP = 0 := by decide

/-- V2-5, V2-1. -/
theorem witness_AddIsCommutative :
    add (.affine 5 1) (.affine 6 3) 2 17 = .ok (.affine 10 6) ∧
      add .identity (.affine 22 35) 2 17 = .ok (.affine 22 35) := by decide

theorem onCurve_G : (Point.affine 5 1).OnCurve 2 2 17 := ⟨by decide, by decide, by decide⟩

theorem witness_ValidPointsHaveInverses :
    ValidCurve 2 2 17 ∧ (Point.affine 5 1).OnCurve 2 2 17 ∧ (Point.affine 5 16).OnCurve 2 2 17 ∧
      Point.identity.OnCurve 2 2 17 ∧ add (.affine 5 1) (.affine 5 16) 2 17 = .ok .identity :=
  ⟨valid_toy, onCurve_G, ⟨by decide, by decide, by decide⟩, trivial, by decide⟩

/-! #### SM, EGU -/

/-- V3-1, V3-10. -/
theorem witness_PmulOfZeroOrIdentity :
    (toySc 0 0 0 0).scalar 0 = 0 ∧ (pts .identity .identity (toySc 7 0 0 0)).point 0 = .identity := by
  decide

theorem prime_toy : (17).Prime ∧ 17 ≠ 2 := ⟨by norm_num, by decide⟩

/-- The odd prime 17, coordinates 16 and 0, and the identity; V3-2 (a product); V3-15 (a fault). -/
theorem witness_PmulWritesTheProduct :
    toy.curveP.Prime ∧ toy.curveP ≠ 2 ∧ (Point.affine 16 0).Reduced toy.curveP ∧
      (pts (.affine 16 0) .identity toy).point 0 = .affine 16 0 ∧ Point.identity.Reduced toy.curveP ∧
      mul 1 (.affine 5 1) 2 17 = .ok (.affine 5 1) ∧ mul 1 (.affine 2 3) 2 15 = .error .arith :=
  ⟨prime_toy.1, prime_toy.2, ⟨by decide, by decide⟩, by decide, trivial, by decide, by decide⟩

/-- V3-2, V3-15. -/
theorem witness_PmulByOneMakesTheUnusedDoubling :
    (toySc 1 0 0 0).scalar 0 = 1 ∧ (∃ D, add (.affine 5 1) (.affine 5 1) 2 17 = .ok D) ∧
      ¬ ∃ D, add (.affine 2 3) (.affine 2 3) 2 15 = .ok D := by
  refine ⟨by decide, ⟨.affine 6 3, by decide⟩, ?_⟩
  rw [show add (.affine 2 3) (.affine 2 3) 2 15 = .error .arith by decide]
  rintro ⟨D, h⟩; cases h

theorem witness_MulHalvesTheScalar : (1 : Nat) ≠ 0 := by decide

theorem witness_MulLoopRunsBitLengthIterations :
    (255 : Nat) ≠ 0 ∧ Nat.log2 255 + 1 ≤ 8 ∧ Nat.log2 255 + 1 ≤ 9 := by decide

theorem witness_MulIsHomomorphic :
    ValidCurve 2 2 17 ∧ (Point.affine 5 1).OnCurve 2 2 17 ∧ Point.identity.OnCurve 2 2 17 :=
  ⟨valid_toy, onCurve_G, trivial⟩

/-- `b = 7`; `b = 6` with `p = 15`, `G = (1, 1)`; `b = 0`, `G` after reset, `b = 19 = n`; the prime 17. -/
theorem witness_EgkeyWritesThePublicKey :
    mul 7 toy.basePoint toy.curveA toy.curveP = .ok (.affine 0 6) ∧
    (let s : State := { toy with curveP := 15, g := ⟨false, 1, 1⟩ }
     mul 6 s.basePoint s.curveA s.curveP = .error .arith) ∧
    ((toySc 0 0 0 0).scalar 0 = 0 ∧ State.reset.basePoint = .identity ∧
      (toySc 19 0 0 0).scalar 0 = (toySc 19 0 0 0).curveN ∧
      mul toy.curveN toy.basePoint toy.curveA toy.curveP = .ok .identity) ∧
    toy.curveP.Prime ∧ toy.curveP ≠ 2 ∧ toy.basePoint.Reduced toy.curveP :=
  ⟨by decide, by decide, by decide, prime_toy.1, prime_toy.2, by decide, by decide⟩

/-- V4-1; the invalid parameters of section 2.4; reduced points. -/
theorem witness_EgencWritesTheCiphertext :
    (let s := toy.accept 0x31481200
     s.rstN = true ∧ s.status.busy = true ∧ s.inputs = [] ∧ s.cmd = encode (.egenc 2 2 0 1 1)) ∧
    (2 : PtReg) ≠ 3 ∧
    (mul 3 (.affine 0 6) 2 17 = .ok (.affine 6 3) ∧ mul 3 (.affine 5 1) 2 17 = .ok (.affine 10 6) ∧
      add (.affine 9 16) (.affine 6 3) 2 17 = .ok (.affine 0 6)) ∧
    (¬ ∃ S C1 C2, mul 6 (.affine 1 1) 2 15 = .ok S ∧ mul 6 (.affine 1 1) 2 15 = .ok C1 ∧
      add (.affine 1 1) S 2 15 = .ok C2) ∧
    toy.curveP.Prime ∧ toy.curveP ≠ 2 ∧ toy.basePoint.Reduced toy.curveP ∧
      (Point.affine 9 16).Reduced toy.curveP ∧ (Point.affine 0 6).Reduced toy.curveP := by
  refine ⟨by decide, by decide, by decide, ?_, prime_toy.1, prime_toy.2, ⟨by decide, by decide⟩,
    ⟨by decide, by decide⟩, by decide, by decide⟩
  rw [show mul 6 (.affine 1 1) 2 15 = .error .arith by decide]
  rintro ⟨S, C1, C2, h, -⟩; cases h

/-- V4-1; `p = 0`; reduced points. -/
theorem witness_EgdecWritesTheMessagePoint :
    (mul 7 (.affine 10 6) 2 17 = .ok (.affine 6 3) ∧ neg (.affine 6 3) 17 = .ok (.affine 6 14) ∧
      add (.affine 0 6) (.affine 6 14) 2 17 = .ok (.affine 9 16)) ∧
    (¬ ∃ S N M, mul 7 (.affine 10 6) 2 0 = .ok S ∧ neg S 0 = .ok N ∧ add (.affine 0 6) N 2 0 = .ok M) ∧
    toy.curveP.Prime ∧ toy.curveP ≠ 2 ∧ (Point.affine 10 6).Reduced toy.curveP ∧
      (Point.affine 0 6).Reduced toy.curveP := by
  refine ⟨by decide, ?_, prime_toy.1, prime_toy.2, ⟨by decide, by decide⟩, by decide, by decide⟩
  rw [show mul 7 (.affine 10 6) 2 0 = .error .arith by decide]
  rintro ⟨S, N, M, h, -⟩; cases h

/-- The illegal words `0x31481200` and `0x41488000` of section 2.6, just accepted. -/
theorem witness_DuplicateDestinationIsIllegal :
    (let s := toy.accept 0x31481200
     s.rstN = true ∧ s.status.busy = true ∧ s.inputs = [] ∧ s.cmd = encode (.egenc 2 2 0 1 1)) ∧
    (let s := toy.accept 0x41488000
     s.rstN = true ∧ s.status.busy = true ∧ s.inputs = [] ∧ s.cmd = encode (.dsasgn 2 2 1 0)) := by
  decide

/-- V4-1: private key 7 in `SC0`, `Pm = (9, 16)` in `PT0`, the public key `(0, 6)` in `PT1`. -/
theorem witness_DecryptionInvertsEncryption :
    let s := pts (.affine 9 16) (.affine 0 6) (toySc 7 3 0 0)
    (2 : PtReg) ≠ 3 ∧ s.ValidParams ∧ (s.point 0).OnCurve s.curveA s.curveB s.curveP ∧
      mul (s.scalar 0) s.basePoint s.curveA s.curveP = .ok (s.point 1) :=
  ⟨by decide, validGroup_toy, ⟨by decide, by decide, by decide⟩, by decide⟩

/-! #### DSU -/

/-- V5-8, V5-26: `n = 0`, `n = 1`. -/
theorem witness_EmptyRangeFaultsBeforeAnyDraw :
    { toy with curveN := 0 }.curveN < 2 ∧ { toy with curveN := 1 }.curveN < 2 ∧ (2 : ScReg) ≠ 3 := by
  decide

/-- V5-7 after its third rejection. -/
theorem witness_RetryFaultsAtTheLimit :
    let s : State := { signing [7] with retryLimit := 3#16, attempts := 3 }
    2 ≤ s.curveN ∧ s.rndReq = none ∧ s.retryLimit ≠ 0#16 ∧ s.attempts = s.retryLimit.toNat := by decide

theorem witness_UnansweredDrawWaits :
    let s : State := signing []
    let u : State := { s with retryLimit := 0#16 }
    (2 ≤ s.curveN ∧ s.entropy = [] ∧ s.rndReq = none ∧ s.attempts ≠ s.retryLimit.toNat) ∧
    (2 ≤ u.curveN ∧ u.entropy = [] ∧ u.rndReq = none ∧ u.retryLimit = 0#16) ∧
    (2 ≤ waiting.curveN ∧ waiting.entropy = [] ∧ waiting.rndReq = some 18) := by decide

theorem mayDraw_signing (l : List Nat) : (signing l).mayDraw := by
  exact .inr (.inr (show (0 : Nat) ≠ (0x0020#16).toNat by decide))

/-- V5-6: the answers 0 and 19. -/
theorem witness_OutOfRangeAnswerIsRejected :
    2 ≤ toy.curveN ∧ (signing [0, 19]).mayDraw ∧ (signing [0, 19]).entropy = 0 :: [19] ∧ 0 < 1 ∧
      (signing [19]).mayDraw ∧ (signing [19]).entropy = 19 :: [] ∧ (signing [19]).curveN - 1 < 19 :=
  ⟨by decide, mayDraw_signing _, rfl, by decide, mayDraw_signing _, rfl, by decide⟩

/-- A signing state over the composite `p = 15` with `G = (2, 3)`, whose doubling faults (V3-15). -/
def signingComposite (answers : List Nat) : State :=
  { signing answers with curveP := 15, g := ⟨false, 2, 3⟩ }

/-- Section 2.5, `DSAKG`: the answers 1 and 18, the ends of the range; a multiplication that faults; and two that
give a point for invalid parameters, composite `p` (V3-14) and `p = 0` with the identity as `G` (R163). -/
theorem witness_DsakgWritesTheKeyPair :
    2 ≤ (signing [1]).curveN ∧ (signing [1]).mayDraw ∧ (signing [1]).entropy = 1 :: [] ∧
      1 ≤ (signing [1]).curveN - 1 ∧ (signing [18]).mayDraw ∧ (signing [18]).entropy = 18 :: [] ∧
      18 ≤ (signing [18]).curveN - 1 ∧
      toy.curveP.Prime ∧ toy.curveP ≠ 2 ∧ (signing [1]).basePoint.Reduced (signing [1]).curveP ∧
      (let s := signingComposite [1]
       2 ≤ s.curveN ∧ s.mayDraw ∧ s.entropy = 1 :: [] ∧
        mul 1 s.basePoint s.curveA s.curveP = .error .arith) ∧
      mul 2 (.affine 1 1) 2 15 = .ok (.affine 8 4) ∧
      (let s : State := { signing [1] with curveP := 0, g := PointReg.identity }
       2 ≤ s.curveN ∧ s.mayDraw ∧ s.entropy = 1 :: [] ∧
        mul 1 s.basePoint s.curveA s.curveP = .ok .identity) :=
  ⟨by decide, mayDraw_signing _, rfl, by decide, mayDraw_signing _, rfl, by decide, prime_toy.1,
    prime_toy.2, ⟨by decide, by decide⟩, ⟨by decide, mayDraw_signing [1], rfl, by decide⟩,
    by decide, ⟨by decide, mayDraw_signing [1], rfl, by decide⟩⟩

/-- V5-1: `K = (10, 6)`, `Inv(3, 19) = 13`. -/
theorem witness_DsasgnWritesTheSignature :
    let s := signing [3]
    (2 : ScReg) ≠ 3 ∧ 2 ≤ s.curveN ∧ s.mayDraw ∧ s.entropy = 3 :: [] ∧ 1 ≤ 3 ∧ 3 ≤ s.curveN - 1 ∧
      mul 3 s.basePoint s.curveA s.curveP = .ok (.affine 10 6) ∧ 13 < s.curveN ∧
      3 * 13 % s.curveN = 1 ∧ 10 % s.curveN ≠ 0 ∧
      13 * (s.scalar 1 + 10 % s.curveN * s.scalar 0) % s.curveN ≠ 0 :=
  ⟨by decide, by decide, mayDraw_signing _, rfl, by decide, by decide, by decide, by decide,
    by decide, by decide, by decide⟩

/-- A faulting multiplication (V3-15), an identity (`19·G`, with `n = 20` written), V5-3 (`r = 0`), V5-4
(`s = 0`), V5-9 (no inverse). -/
theorem witness_SignAttemptRejectsOrFaults :
    (let s := signingComposite [1]
     (2 : ScReg) ≠ 3 ∧ 2 ≤ s.curveN ∧ s.entropy = 1 :: [] ∧ 1 ≤ s.curveN - 1 ∧
        mul 1 s.basePoint s.curveA s.curveP = .error .arith) ∧
    (let s : State := { signing [19] with curveN := 20 }
     s.entropy = 19 :: [] ∧ 1 ≤ 19 ∧ 19 ≤ s.curveN - 1 ∧
        mul 19 s.basePoint s.curveA s.curveP = .ok .identity) ∧
    (let s := signing [7]
     7 ≤ s.curveN - 1 ∧ mul 7 s.basePoint s.curveA s.curveP = .ok (.affine 0 6) ∧ 0 % s.curveN = 0) ∧
    (let s : State := (signing [3]).setScalar 1 18
     mul 3 s.basePoint s.curveA s.curveP = .ok (.affine 10 6) ∧ 10 % s.curveN ≠ 0 ∧
        13 < s.curveN ∧ 3 * 13 % s.curveN = 1 ∧
        13 * (s.scalar 1 + 10 % s.curveN * s.scalar 0) % s.curveN = 0) ∧
    (let s : State := { signing [2] with curveN := 18 }
     2 ≤ s.curveN - 1 ∧ mul 2 s.basePoint s.curveA s.curveP = .ok (.affine 6 3) ∧
        6 % s.curveN ≠ 0 ∧ Nat.gcd 2 s.curveN ≠ 1) := by decide

theorem witness_SignatureHalvesAreInRange :
    let t := after (exec (.dsasgn 2 3 1 0) (signing [3]))
    exec (.dsasgn 2 3 1 0) (signing [3]) = .next t ∧ (signing [3]).status.busy = true ∧
      (signing [3]).status.err = false ∧ t.status.busy = false ∧ t.status.err = false :=
  ⟨next_of_isNext (by decide), by decide, by decide, by decide, by decide⟩

/-- V5-18 to V5-21: 0 and `n` in either half. -/
theorem witness_DsavfyRangeFailure :
    (toySc 2 10 0 10).scalar 2 < 1 ∧ (toySc 2 10 19 10).curveN ≤ (toySc 2 10 19 10).scalar 2 ∧
      (toySc 2 10 10 0).scalar 3 < 1 ∧ (toySc 2 10 10 19).curveN ≤ (toySc 2 10 10 19).scalar 3 := by
  decide

/-- V5-10: the verdict `V = 1`, and every hypothesis of both clauses. V5-23: the identity. -/
theorem witness_DsavfyWritesTheVerdict :
    let s := pts (.affine 6 3) .identity (toySc 2 10 10 10)
    (1 ≤ s.scalar 2 ∧ s.scalar 2 < s.curveN ∧ 1 ≤ s.scalar 3 ∧ s.scalar 3 < s.curveN ∧
      Nat.gcd (s.scalar 3) s.curveN = 1) ∧
    s.curveP.Prime ∧ s.curveP ≠ 2 ∧ s.basePoint.Reduced s.curveP ∧ (s.point 0).Reduced s.curveP ∧
    (2 < s.curveN ∧ s.scalar 3 * 2 % s.curveN = 1 ∧
      mul (s.scalar 1 * 2 % s.curveN) s.basePoint s.curveA s.curveP = .ok (.affine 5 1) ∧
      mul (s.scalar 2 * 2 % s.curveN) (s.point 0) s.curveA s.curveP = .ok (.affine 6 3) ∧
      add (.affine 5 1) (.affine 6 3) s.curveA s.curveP = .ok (.affine 10 6)) ∧
    verify 14 1 10 (s.point 0) s.curveN s.basePoint s.curveA s.curveP = .ok .fail :=
  ⟨by decide, prime_toy.1, prime_toy.2, ⟨by decide, by decide⟩, ⟨by decide, by decide⟩, by decide,
    by decide⟩

/-- The first clause of the same statement on invalid parameters: `p = 0` with identity points (R5, R168), every
product and the sum being the identity. -/
theorem witness_DsavfyWritesTheVerdict_invalid :
    let s : State := { pts .identity .identity (toySc 2 10 10 10) with curveP := 0, g := PointReg.identity }
    1 ≤ s.scalar 2 ∧ s.scalar 2 < s.curveN ∧ 2 < s.curveN ∧ s.scalar 3 * 2 % s.curveN = 1 ∧
      mul (s.scalar 1 * 2 % s.curveN) s.basePoint s.curveA s.curveP = .ok .identity ∧
      mul (s.scalar 2 * 2 % s.curveN) (s.point 0) s.curveA s.curveP = .ok .identity ∧
      add .identity .identity s.curveA s.curveP = .ok .identity := by decide

/-- V5-24 (`s` without inverse), and `p = 0` (R9) under the halves of V5-10. -/
theorem witness_DsavfyFaultFailsClosed :
    (let s : State := { toySc 2 10 5 6 with curveN := 18 }
     1 ≤ s.scalar 2 ∧ s.scalar 2 < s.curveN ∧ 1 ≤ s.scalar 3 ∧ s.scalar 3 < s.curveN ∧
        Nat.gcd (s.scalar 3) s.curveN ≠ 1) ∧
    verify 10 10 10 (.affine 6 3) 19 (.affine 5 1) 2 0 = .error .arith := by decide

/-- V5-10, V5-17: 10 and 29. -/
theorem witness_OnlyTheHashResidueMatters : 10 % 19 = 29 % 19 ∧ 19 ≠ 0 := by decide

/-- V5-1, V5-10: `d = 2`, `Q = (6, 3)`, `z = 10`, the answer 3. -/
theorem witness_SignatureVerifies :
    let s := (signing [3]).setPoint 0 (.affine 6 3)
    let t := after (exec (.dsasgn 2 3 1 0) s)
    s.ValidParams ∧ mul (s.scalar 0) s.basePoint s.curveA s.curveP = .ok (s.point 0) ∧
      (1 : ScReg) ≠ 2 ∧ (1 : ScReg) ≠ 3 ∧ exec (.dsasgn 2 3 1 0) s = .next t ∧
      s.status.busy = true ∧ s.status.err = false ∧ t.status.busy = false ∧ t.status.err = false :=
  ⟨validGroup_toy, by decide, by decide, by decide, next_of_isNext (by decide), by decide, by decide,
    by decide, by decide⟩

/-! #### The whole machine -/

/-- Registers outside the destinations, for a command with two of them and for one with none. -/
theorem witness_CommandFrame :
    let i : Instr := .dsasgn 2 3 1 0
    exec i (signing [3]) = .next (after (exec i (signing [3]))) ∧ (1 : ScReg) ∉ i.scalarDests ∧
      (0 : PtReg) ∉ i.pointDests ∧ (Instr.minv 2 0 1).draws = false ∧ i.verifies = false :=
  ⟨next_of_isNext (by decide), by decide, by decide, rfl, rfl⟩

theorem witness_FaultIsPrecise :
    let s := (toySc 4 8 0xAA 0).accept 0x01408000
    exec (.minv 2 0 1) s = .next (after (exec (.minv 2 0 1) s)) ∧ s.status.err = false ∧
      (after (exec (.minv 2 0 1) s)).status.err = true ∧ (Instr.minv 2 0 1).draws = false ∧
      (Instr.dsavfy 2 3 1 0).verifies = true :=
  ⟨next_of_isNext (by decide), by decide, by decide, rfl, rfl⟩

/-- A commit, and a rejected attempt after which the command goes on. -/
theorem witness_CommitKeepsTheFaultRegisters :
    let i : Instr := .dsasgn 2 3 1 0
    (exec i (signing [3]) = .next (after (exec i (signing [3]))) ∧
      (after (exec i (signing [3]))).status.err = false ∧ (signing [3]).status.busy = true) ∧
    (signing [7]).status.err = false ∧ (after (exec i (signing [7]))).status.err = false ∧
      (after (exec i (signing [7]))).status.busy = true :=
  ⟨⟨next_of_isNext (by decide), by decide, by decide⟩, by decide, by decide, by decide⟩

theorem witness_FaultsNeverNest :
    faulted.Inv ∧ faulted.status.err = true ∧ ∃ t, step faulted = .next t :=
  ⟨inv_faulted, by decide, _, next_of_isNext (by decide)⟩

/-- A passing `DSAVFY` sets `V`; reset clears it. -/
theorem witness_VerdictChangesOnlyByDsavfy :
    let s := (pts (.affine 6 3) .identity (toySc 2 10 10 10)).accept 0x424C8000
    let u : State := { verified with inputs := [.rstN false] }
    (step s = .next (after (step s)) ∧ (after (step s)).status.v ≠ s.status.v) ∧
    step u = .next (after (step u)) ∧ (after (step u)).status.v ≠ u.status.v :=
  ⟨⟨next_of_isNext (by decide), by decide⟩, next_of_isNext (by decide), by decide⟩

theorem witness_NoCommandReadsCurveB :
    toy.status.busy = false ∧ fitsIn Config.W 7 ∧
      exec (.egkey 1 0) toy = .next (after (exec (.egkey 1 0) toy)) :=
  ⟨by decide, fits_of_lt (by decide), next_of_isNext (by decide)⟩

/-- A command that ends with `DIE` set, and one that faults with `EIE` set. -/
theorem witness_InterruptFollowsStatus :
    (toy.status.busy = false ∧ toy.status.err = false) ∧
    (let s : State := { (toySc 3 19 0 0).accept 0x01408000 with ctrl := ⟨true, false⟩ }
     let t := after (exec (.minv 2 0 1) s)
     exec (.minv 2 0 1) s = .next t ∧ s.status.busy = true ∧ t.status.busy = false ∧
        s.ctrl.die = true) ∧
    (let s : State := { (toySc 4 8 0 0).accept 0x01408000 with ctrl := ⟨false, true⟩ }
     let t := after (exec (.minv 2 0 1) s)
     exec (.minv 2 0 1) s = .next t ∧ s.status.busy = true ∧ t.status.busy = false ∧
        s.ctrl.eie = true ∧ t.status.err = true) :=
  ⟨by decide, ⟨next_of_isNext (by decide), by decide, by decide, rfl⟩, next_of_isNext (by decide),
    by decide, by decide, rfl, by decide⟩

theorem witness_UnansweredCommandHangs :
    waiting.Inv ∧ waiting.status.busy = true ∧ waiting.rstN = true ∧
      decode waiting.cmd = .ok (.dsasgn 2 3 1 0) ∧ (Instr.dsasgn 2 3 1 0).draws = true ∧
      waiting.rndReq = some 18 ∧ waiting.inputs = [] ∧ waiting.entropy = [] :=
  ⟨inv_waiting, by decide, by decide, by decide, by decide, by decide, by decide, by decide⟩

/-- A cap of 1 and one answer. -/
theorem witness_CappedCommandTerminates :
    let s : State := { signing [7] with retryLimit := 1#16 }
    s.Inv ∧ s.status.busy = true ∧ s.rstN = true ∧ s.inputs = [] ∧ s.retryLimit ≠ 0#16 ∧
      s.retryLimit.toNat ≤ s.entropy.length :=
  ⟨by apply inv_of_checks <;> decide, by decide, by decide, by decide, by decide, by decide⟩

end Sys2Proof.Tests
end

section
/-! Proofs/CurveB: no command reads `CURVE_B` (spec/10_state.md R36). No operand of a command is taken from
the register, so from a state with another `CURVE_B` each shared operation takes the same case. -/

namespace Sys2Proof.Machine

/-- The state with `b` in `CURVE_B`, as a host write leaves it (`hostWrite_curveB`). -/
def State.setCurveB (b : Nat) (s : State) : State := { s with curveB := b }

/-- An idle host's write to `CURVE_B` stores the data (R63 (f)). -/
theorem hostWrite_curveB {s : State} (hb : s.status.busy = false) (v : Nat) :
    hostWrite 0x0A v s = s.setCurveB v := by
  have hmap : regMap 0x0A = some .curveB := rfl
  simp [hostWrite, hmap, HostReg.readOnly, hb, State.writeReg, State.setCurveB]

theorem hostRead_setCurveB (s : State) (v : Nat) : hostRead 0x0A (s.setCurveB v) = v := rfl

section
variable {α : Type} {write : α → State → State} {s t : State} {b : Nat}

theorem finish_setCurveB {r : Result α} (h : finish r write s = .next t)
    (hw : ∀ v u, write v (State.setCurveB b u) = (write v u).setCurveB b) :
    finish r write (s.setCurveB b) = .next (t.setCurveB b) := by
  rcases finish_cases h with ⟨v, rfl, rfl⟩ | ⟨c, rfl, rfl⟩
  · rw [finish_ok, hw]; rfl
  · rfl

theorem drawLoop_setCurveB {attempt : Nat → Result (Option α)}
    (h : drawLoop attempt write s = .next t)
    (hw : ∀ v u, write v (State.setCurveB b u) = (write v u).setCurveB b) :
    drawLoop attempt write (s.setCurveB b) = .next (t.setCurveB b) := by
  rcases drawLoop_cases h with ⟨hn, rfl⟩ | ⟨hn, hr, hl, ha, rfl⟩ |
    ⟨hn, hd, he, ⟨hr, rfl⟩ | ⟨hr, rfl⟩⟩ | ⟨hn, hd, c, rest, he, h⟩
  · exact drawLoop_emptyRange (s := s.setCurveB b) attempt write hn
  · exact drawLoop_retry (s := s.setCurveB b) attempt write hn hr hl ha
  · exact drawLoop_waits_requesting (s := s.setCurveB b) attempt write hn hr hd he
  · obtain ⟨bound, hr⟩ := Option.ne_none_iff_exists'.1 hr
    exact drawLoop_waits_requested (s := t.setCurveB b) attempt write hn hr he
  · rw [drawLoop_attempt (s := s.setCurveB b) attempt write hn hd he]
    rcases h with ⟨hc, rfl⟩ | ⟨v, hc, rfl⟩ | ⟨e, hc, rfl⟩ <;> rw [hc]
    · rfl
    · exact congrArg (Host.Outcome.next ∘ State.commit) (hw v (s.drawn rest).publishAttempts)
    · rfl

end

theorem execDsavfy_setCurveB {sr ss sz : ScReg} {pq : PtReg} {s t : State} (b : Nat)
    (h : execDsavfy sr ss sz pq s = .next t) :
    execDsavfy sr ss sz pq (s.setCurveB b) = .next (t.setCurveB b) := by
  have hv : verify ((s.setCurveB b).scalar sr) ((s.setCurveB b).scalar ss)
      ((s.setCurveB b).scalar sz) ((s.setCurveB b).point pq) (s.setCurveB b).curveN
      (s.setCurveB b).basePoint (s.setCurveB b).curveA (s.setCurveB b).curveP =
    verify (s.scalar sr) (s.scalar ss) (s.scalar sz) (s.point pq) s.curveN s.basePoint
      s.curveA s.curveP := rfl
  unfold execDsavfy at h ⊢
  rw [hv]
  generalize verify .. = r at h ⊢
  cases r with
  | ok v => cases h; rfl
  | error c => cases h; rfl

/-- A command run with another `CURVE_B` ends in the same state but for `CURVE_B`. -/
theorem exec_setCurveB {i : Instr} {s t : State} (b : Nat) (h : exec i s = .next t) :
    exec i (s.setCurveB b) = .next (t.setCurveB b) := by
  cases i with
  | minv sd sk sm => exact finish_setCurveB h fun _ _ => rfl
  | padd pd pa pb => exact finish_setCurveB h fun _ _ => rfl
  | pneg pd pa => exact finish_setCurveB h fun _ _ => rfl
  | pmul pd sk pa => exact finish_setCurveB h fun _ _ => rfl
  | egkey pd sb => exact finish_setCurveB h fun _ _ => rfl
  | egenc pc1 pc2 pm sk pb =>
    simp only [exec, execEgenc] at h ⊢
    split at h
    · next hd => cases h; exact if_pos hd
    · next hd => rw [if_neg hd]; exact finish_setCurveB h fun _ _ => rfl
  | egdec pd pc1 pc2 sb => exact finish_setCurveB h fun _ _ => rfl
  | dsakg sd pq => exact drawLoop_setCurveB h fun _ _ => rfl
  | dsasgn sr ss sz sd =>
    simp only [exec, execDsasgn] at h ⊢
    split at h
    · next hd => cases h; exact if_pos hd
    · next hd => rw [if_neg hd]; exact drawLoop_setCurveB h fun _ _ => rfl
  | dsavfy sr ss sz pq => exact execDsavfy_setCurveB b h

/-- Settles O57: `hostWrite_curveB` for the register, `exec_setCurveB` for the commands. -/
theorem noCommandReadsCurveB : Obligations.NoCommandReadsCurveB :=
  ⟨rfl, fun s v hb _ => hostWrite_curveB hb v ▸ ⟨hostRead_setCurveB s v, rfl⟩,
    fun _ _ _ b h => exec_setCurveB b h⟩

end Sys2Proof.Machine
end

section
/-! Proofs/HostAccess: accesses of the host port that change nothing but `HERR`, and reads while a command
runs (spec/20_memory.md R65, R66). -/

namespace Sys2Proof.Machine

/-! ### The register map -/

theorem regMap_eq_none_of_unmapped {r : RegNum} (h : unmappedNumber r) : regMap r = none := by
  unfold unmappedNumber at h
  revert r
  decide

theorem regMap_eq_status_iff : ∀ {r : RegNum}, regMap r = some .status ↔ r = 0x01 := by decide

/-! ### Unmapped and read-only numbers (R65) -/

theorem hostRead_unmapped {r : RegNum} (h : unmappedNumber r) (s : State) : hostRead r s = 0 := by
  rw [hostRead, regMap_eq_none_of_unmapped h]

theorem hostWrite_unmapped {r : RegNum} (h : unmappedNumber r) (v : Nat) (s : State) :
    hostWrite r v s = s.dropWrite := by
  rw [hostWrite, regMap_eq_none_of_unmapped h]

/-- Settles O17: `hostRead_unmapped` and `hostWrite_unmapped`; the three read-only numbers by computation. -/
theorem unmappedAndReadOnlyWritesAreDropped : Obligations.UnmappedAndReadOnlyWritesAreDropped := by
  intro s r v
  refine ⟨fun h => hostRead_unmapped h s, rfl, rfl, rfl, ?_⟩
  rintro (h | rfl | rfl | rfl)
  · exact hostWrite_unmapped h v s
  · rfl
  · rfl
  · rfl

/-! ### While a command runs (R66) -/

/-- R66 for writes: `STATUS` and `CTRL` are the only two registers the host changes. -/
theorem hostWrite_busy_drops {s : State} (hb : s.status.busy = true) {r : RegNum} (h1 : r ≠ 0x01)
    (h4 : r ≠ 0x04) (v : Nat) : hostWrite r v s = s.dropWrite := by
  rcases hostWrite_cases r v s with ⟨hr, -⟩ | ⟨hr, -⟩ | hdrop | ⟨hidle, -⟩ | ⟨hidle, -⟩
  · exact absurd hr h1
  · exact absurd hr h4
  · exact hdrop
  · exact absurd hidle (by simp [hb])
  · exact absurd hidle (by simp [hb])

/-- The machine with `BUSY` cleared and everything else as it is: what R66 compares a read with. -/
def State.clearBusy (s : State) : State := { s with status := { s.status with busy := false } }

theorem Status.value_eq_clearBusy_add_one {st : Status} (hb : st.busy = true) :
    st.value = { st with busy := false : Status }.value + 1 := by
  simp only [Status.value, hb, Bool.toNat_true, Bool.toNat_false]
  omega

/-- `STATUS` is the one register that shows `BUSY`. -/
theorem readReg_clearBusy (s : State) {reg : HostReg} (h : reg ≠ .status) :
    s.clearBusy.readReg reg = s.readReg reg := by
  cases reg with
  | status => exact absurd rfl h
  | _ => rfl

theorem hostRead_clearBusy (s : State) {r : RegNum} (h : r ≠ 0x01) :
    hostRead r s.clearBusy = hostRead r s := by
  unfold hostRead
  cases hreg : regMap r with
  | none => rfl
  | some reg => exact readReg_clearBusy s fun hst => h (regMap_eq_status_iff.1 (hst ▸ hreg))

/-- Settles O16: `hostWrite_busy_drops` for the writes, `hostRead_clearBusy` for the reads. -/
theorem busyWritesAreDropped : Obligations.BusyWritesAreDropped := by
  intro s r v hb
  refine ⟨?_, ?_, fun h1 h4 => hostWrite_busy_drops hb h1 h4 v, ?_⟩
  · rintro rfl; rfl
  · rintro rfl; rfl
  · by_cases h : r = 0x01
    · subst h
      exact Status.value_eq_clearBusy_add_one hb
    · rw [if_neg h]
      exact (hostRead_clearBusy s h).symm

end Sys2Proof.Machine
end

section
/-! Proofs/Encoding: a word is selected by at most one row of R94, so the word of a command decodes by that
command's own row; whether R97 refuses it is the only question left (spec/30_encoding.md R91 to R97). -/

namespace Sys2Proof

/-! ### The match-and-mask table (R94) -/

/-- Every row compares the whole opcode byte, and no two rows have the same. -/
theorem OpcodeRow.eq_of_selects {c : CmdWord} {x y : OpcodeRow} (hx : x ∈ opcodeRows)
    (hy : y ∈ opcodeRows) (hxc : x.selects c = true) (hyc : y.selects c = true) : x = y := by
  obtain ⟨hxop, -⟩ := (OpcodeRow.selects_iff c hx).1 hxc
  obtain ⟨hyop, -⟩ := (OpcodeRow.selects_iff c hy).1 hyc
  exact List.inj_on_of_nodup_map (List.pairwise_map.2 opcodes_pairwise_ne) hx hy (hxop.symm.trans hyop)

/-- Settles O7: the values by computation, the disjointness by `OpcodeRow.eq_of_selects`. -/
theorem opcodeRowsAreDisjoint : Obligations.OpcodeRowsAreDisjoint :=
  ⟨fun _ => rfl, fun _ _ _ hx hy => OpcodeRow.eq_of_selects hx hy⟩

/-- R91 for a selected word: which row the search finds does not depend on the order of the table. -/
theorem decode_of_selects {c : CmdWord} {row : OpcodeRow} (hmem : row ∈ opcodeRows)
    (hsel : row.selects c = true) :
    decode c = if (operandsOf row.mnemonic c).wellFormed then .ok (operandsOf row.mnemonic c)
      else .error .duplicateDestination := by
  have hfind : opcodeRows.find? (fun r => r.selects c) = some row := by
    cases h : opcodeRows.find? (fun r => r.selects c) with
    | none => exact absurd hsel (List.find?_eq_none.1 h row hmem)
    | some found =>
      have hfound : found.selects c = true := by simpa using List.find?_some h
      rw [OpcodeRow.eq_of_selects (List.mem_of_find?_eq_some h) hmem hfound hsel]
  rw [decode, hfind]

/-! ### Words of commands (R92, R93) -/

section unused
variable (op : Nat) (hop : op < 256) (r0 r1 r2 r3 : Fin 8)
include hop

theorem packWord_mod_of_f4_unused : (packWord op r0 r1 r2 r3 0).toNat % 2 ^ 12 = 0 := by
  rw [packWord_toNat op hop, Fin.val_zero]; omega

theorem packWord_mod_of_f3_unused : (packWord op r0 r1 r2 0 0).toNat % 2 ^ 15 = 0 := by
  rw [packWord_toNat op hop, Fin.val_zero]; omega

theorem packWord_mod_of_f2_unused : (packWord op r0 r1 0 0 0).toNat % 2 ^ 18 = 0 := by
  rw [packWord_toNat op hop, Fin.val_zero]; omega

end unused

/-- The row of R94 that selects a command's word (`selects_row_encode`). -/
def Instr.row : Instr → OpcodeRow
  | .minv .. => ⟨.minv, 0x01000000, 0xFF007FFF⟩
  | .padd .. => ⟨.padd, 0x10000000, 0xFF007FFF⟩
  | .pneg .. => ⟨.pneg, 0x11000000, 0xFF03FFFF⟩
  | .pmul .. => ⟨.pmul, 0x20000000, 0xFF007FFF⟩
  | .egkey .. => ⟨.egkey, 0x30000000, 0xFF03FFFF⟩
  | .egenc .. => ⟨.egenc, 0x31000000, 0xFF0001FF⟩
  | .egdec .. => ⟨.egdec, 0x32000000, 0xFF000FFF⟩
  | .dsakg .. => ⟨.dsakg, 0x40000000, 0xFF03FFFF⟩
  | .dsasgn .. => ⟨.dsasgn, 0x41000000, 0xFF000FFF⟩
  | .dsavfy .. => ⟨.dsavfy, 0x42000000, 0xFF000FFF⟩

theorem Instr.row_mem (i : Instr) : i.row ∈ opcodeRows := by
  cases i <;> simp [Instr.row, opcodeRows]

theorem opcodeField_encode (i : Instr) : opcodeField (encode i) = i.row.value.toNat / 2 ^ 24 := by
  cases i <;> simp [encode, Instr.row, opcodeField_packWord]

/-- How many low bits a command's word has below its last used field (R93). -/
def Instr.unusedBits : Instr → Nat
  | .pneg .. | .egkey .. | .dsakg .. => 18
  | .minv .. | .padd .. | .pmul .. => 15
  | .egdec .. | .dsasgn .. | .dsavfy .. => 12
  | .egenc .. => 9

theorem Instr.row_mask_low (i : Instr) : i.row.mask.toNat % 2 ^ 24 + 1 = 2 ^ i.unusedBits := by
  cases i <;> simp [Instr.row, Instr.unusedBits]

theorem encode_mod_unusedBits (i : Instr) : (encode i).toNat % 2 ^ i.unusedBits = 0 := by
  cases i with
  | pneg | egkey | dsakg => exact packWord_mod_of_f2_unused _ (by decide) ..
  | minv | padd | pmul => exact packWord_mod_of_f3_unused _ (by decide) ..
  | egdec | dsasgn | dsavfy => exact packWord_mod_of_f4_unused _ (by decide) ..
  | egenc => exact packWord_low _ (by decide) ..

theorem selects_row_encode (i : Instr) : i.row.selects (encode i) = true :=
  (OpcodeRow.selects_iff _ i.row_mem).2
    ⟨opcodeField_encode i, i.row_mask_low ▸ encode_mod_unusedBits i⟩

/-- The register selects of a command's word are the command's operands (R93). -/
theorem operandsOf_encode (i : Instr) : operandsOf i.row.mnemonic (encode i) = i := by
  cases i <;>
    simp [Instr.row, operandsOf, encode, f0_packWord, f1_packWord, f2_packWord, f3_packWord, f4_packWord]

/-- The word of a command decodes to the command unless R97 refuses its destinations. -/
theorem decode_encode (i : Instr) :
    decode (encode i) = if i.wellFormed then .ok i else .error .duplicateDestination := by
  rw [decode_of_selects i.row_mem (selects_row_encode i), operandsOf_encode]

end Sys2Proof

namespace Sys2Proof.Machine

/-! ### A running word that does not decode (R97; spec/60_exceptions.md R184) -/

section running
variable {s : State} (hrst : s.rstN = true) (hbusy : s.status.busy = true) (hin : s.inputs = [])
include hrst hbusy hin

theorem step_of_decode_error {e : DecodeError} (hd : decode s.cmd = .error e) :
    step s = .next (s.takeFault .illegal) := by
  simp [step, hin, sequencer, hrst, hbusy, hd]

theorem step_of_illFormed {i : Instr} (hcmd : s.cmd = encode i) (hi : i.wellFormed = false) :
    step s = .next (s.takeFault .illegal) := by
  refine step_of_decode_error hrst hbusy hin (e := .duplicateDestination) ?_
  rw [hcmd, decode_encode, hi]
  rfl

end running

/-- Settles O37: `step_of_illFormed` for the two commands with two destinations of one file, `decode_encode`
for `DSAKG`. -/
theorem duplicateDestinationIsIllegal : Obligations.DuplicateDestinationIsIllegal :=
  ⟨fun _ pc _ _ _ hrst hbusy hin hcmd => step_of_illFormed hrst hbusy hin hcmd (bne_self_eq_false pc),
    fun _ sr _ _ hrst hbusy hin hcmd => step_of_illFormed hrst hbusy hin hcmd (bne_self_eq_false sr),
    fun _ _ => decode_encode _⟩

end Sys2Proof.Machine
end

section
/-! Proofs/FieldInverse: `MINV` by the contract of `Inv` on the register contents, which are naturals
(spec/40_field_inverse.md R111, R112). -/

namespace Sys2Proof.Machine

section natural
variable {k m : Nat}

/-- `Inv` of a natural, its congruence as an equation of residues. -/
theorem inv_natCast_ok_iff {v : Nat} :
    inv k m = .ok v ↔ Nat.gcd k m = 1 ∧ v < m ∧ k * v % m = 1 % m := by
  have hcong : (m : Int) ∣ k * v - 1 ↔ k * v % m = 1 % m :=
    calc (m : Int) ∣ k * v - 1
      _ ↔ 1 ≡ k * v [MOD m] := by rw [Nat.modEq_iff_dvd]; push_cast; rfl
      _ ↔ k * v % m = 1 % m := Nat.ModEq.comm
  rw [inv_ok_iff, Int.gcd_natCast_natCast, hcong]

theorem inv_natCast_arith_iff : inv k m = .error .arith ↔ m = 0 ∨ Nat.gcd k m ≠ 1 := by
  rw [inv_error_iff, Int.gcd_natCast_natCast, and_iff_right rfl]

/-- The one residue that R112 names: `Inv` answers it, and every residue of the same property is the answer. -/
theorem inv_natCast_existsUnique (hm : m ≠ 0) (hg : Nat.gcd k m = 1) :
    ∃ v : Nat, inv k m = .ok v ∧ v < m ∧ k * v % m = 1 % m ∧
      ∀ w < m, k * w % m = 1 % m → w = v := by
  obtain ⟨v, hv⟩ := inv_total hm ((Int.gcd_natCast_natCast k m).trans hg)
  obtain ⟨-, hlt, hinv⟩ := inv_natCast_ok_iff.1 hv
  refine ⟨v, hv, hlt, hinv, fun w hw hwinv => ?_⟩
  exact Except.ok.inj ((inv_natCast_ok_iff.2 ⟨hg, hw, hwinv⟩).symm.trans hv)

end natural

section command
variable {sd sk sm : ScReg} {s : State}

theorem exec_minv_of_inv_ok {v : Nat} (h : inv (s.scalar sk) (s.scalar sm) = .ok v) :
    exec (.minv sd sk sm) s = .next (s.setScalar sd v).commit := by
  rw [exec, execMinv, h, finish_ok]

theorem exec_minv_of_inv_error {c : Cause} (h : inv (s.scalar sk) (s.scalar sm) = .error c) :
    exec (.minv sd sk sm) s = .next (s.takeFault c) := by
  rw [exec, execMinv, h, finish_error]

end command

/-- The word of `MINV` (R92, R93): opcode 0x01, three register selects, the two other fields 0. -/
theorem encode_minv (sd sk sm : ScReg) :
    encode (.minv sd sk sm) =
      BitVec.ofNat 32 (0x01000000 + sd.val * 2 ^ 21 + sk.val * 2 ^ 18 + sm.val * 2 ^ 15) := by
  simp [encode, packWord]

/-- Settles O20: `inv_natCast_existsUnique` where the inverse exists, `inv_natCast_arith_iff` where it does
not. -/
theorem minvWritesTheInverse : Obligations.MinvWritesTheInverse := by
  intro s sd sk sm
  refine ⟨encode_minv sd sk sm, fun hm hg => ?_, fun h => ?_⟩
  · obtain ⟨v, hv, hlt, hinv, huniq⟩ := inv_natCast_existsUnique hm hg
    exact ⟨v, hlt, hinv, huniq, exec_minv_of_inv_ok hv⟩
  · exact exec_minv_of_inv_error (inv_natCast_arith_iff.2 h)

end Sys2Proof.Machine
end

section
/-! Proofs/PointNegate: `PNEG` by the contract of `Neg` on the register contents, which are naturals
(spec/41_point_add.md R126). -/

namespace Sys2Proof.Machine

/-- The residue of `-y` in natural arithmetic; the outer reduction is for `p` dividing `y`. -/
theorem natCast_sub_mod_eq_neg_emod {p : Nat} (hp : p ≠ 0) (y : Nat) :
    (((p - y % p) % p : Nat) : Int) = -(y : Int) % p := by
  have hle : y % p ≤ p := (Nat.mod_lt y (Nat.pos_of_ne_zero hp)).le
  calc (((p - y % p) % p : Nat) : Int)
    _ = ((p : Int) - (y : Int) % p) % p := by rw [Int.natCast_mod, Nat.cast_sub hle, Int.natCast_mod]
    _ = ((p : Int) - y) % p := Int.sub_emod_emod ..
    _ = -(y : Int) % p := by rw [sub_eq_add_neg, Int.add_emod_left]

theorem neg_affine_of_ne_zero {p : Nat} (hp : p ≠ 0) (x y : Nat) :
    neg (.affine x y) p = .ok (.affine x ((p - y % p) % p)) :=
  neg_affine_ok_iff.2 ⟨hp, _, rfl, natCast_sub_mod_eq_neg_emod hp y⟩

theorem neg_affine_zero (x y : Nat) : neg (.affine x y) 0 = .error .arith := rfl

section command
variable {pd pa : PtReg} {s : State}

theorem exec_pneg_of_neg_ok {N : Point} (h : neg (s.point pa) s.curveP = .ok N) :
    exec (.pneg pd pa) s = .next (s.setPoint pd N).commit := by
  rw [exec, execPneg, h, finish_ok]

theorem exec_pneg_of_neg_error {c : Cause} (h : neg (s.point pa) s.curveP = .error c) :
    exec (.pneg pd pa) s = .next (s.takeFault c) := by
  rw [exec, execPneg, h, finish_error]

end command

/-- The word of `PNEG` (R92, R93): opcode 0x11, two register selects, the three other fields 0. -/
theorem encode_pneg (pd pa : PtReg) :
    encode (.pneg pd pa) = BitVec.ofNat 32 (0x11000000 + pd.val * 2 ^ 21 + pa.val * 2 ^ 18) := by
  simp [encode, packWord]

/-- Settles O25: one value of `Neg` for each of the identity, an affine point with `p ≠ 0`, and one with
`p = 0`. -/
theorem pnegNegates : Obligations.PnegNegates := by
  intro s pd pa
  refine ⟨encode_pneg pd pa, fun hpt => ?_, fun x y hpt hp => ?_, fun x y hpt hp => ?_⟩
  · exact exec_pneg_of_neg_ok (hpt ▸ neg_identity s.curveP)
  · exact exec_pneg_of_neg_ok (hpt ▸ neg_affine_of_ne_zero hp x y)
  · exact exec_pneg_of_neg_error (by rw [hpt, hp, neg_affine_zero])

end Sys2Proof.Machine
end

section
/-! Proofs/ElGamal: `EGKEY`, `EGENC` and `EGDEC`. Each ends as its body does, whose only fault is `Arith`, and
over an odd prime the body of none faults on reduced points (spec/43_ec_elgamal.md R146, R148, R151). -/

namespace Sys2Proof.Machine

/-! ### The bodies over an odd prime (R115) -/

section total
variable {p : Nat} (a : Nat) (hp : p.Prime) (h2 : p ≠ 2)
include hp h2

theorem encrypt_total (k : Nat) {Pm G Pb : Point} (hPm : Pm.Reduced p) (hG : G.Reduced p)
    (hPb : Pb.Reduced p) : ∃ C, encrypt Pm k a p G Pb = .ok C := by
  obtain ⟨S, hS, hSr⟩ := mul_total a hp h2 k hPb
  obtain ⟨C1, hC1, -⟩ := mul_total a hp h2 k hG
  obtain ⟨C2, hC2, -⟩ := add_total a hp h2 hPm hSr
  exact ⟨(C1, C2), encrypt_ok_iff.2 ⟨S, hS, hC1, hC2⟩⟩

theorem decrypt_total (b : Nat) {C1 C2 : Point} (hC1 : C1.Reduced p) (hC2 : C2.Reduced p) :
    ∃ M, decrypt C1 C2 b a p = .ok M := by
  obtain ⟨S, hS, hSr⟩ := mul_total a hp h2 b hC1
  obtain ⟨N, hN, hNr⟩ := neg_total hp.ne_zero hSr
  obtain ⟨M, hM, -⟩ := add_total a hp h2 hC2 hNr
  exact ⟨M, decrypt_ok_iff.2 ⟨S, N, hS, hN, hM⟩⟩

end total

/-! ### The commands by their bodies -/

/-- A body whose only fault is `Arith` and that has no result takes that fault. -/
theorem finish_arith {α : Type} {r : Result α} (honly : ∀ c, r = .error c → c = .arith)
    (hnone : ¬ ∃ v, r = .ok v) (write : α → State → State) (s : State) :
    finish r write s = .next (s.takeFault .arith) := by
  cases r with
  | ok v => exact absurd ⟨v, rfl⟩ hnone
  | error c => rw [honly c rfl, finish_error]

section command
variable {s : State} {pd pc1 pc2 pm pb : PtReg} {sb sk : ScReg}

theorem exec_egkey_of_mul_ok {R : Point}
    (h : mul (s.scalar sb) s.basePoint s.curveA s.curveP = .ok R) :
    exec (.egkey pd sb) s = .next (s.setPoint pd R).commit := by
  rw [exec, execEgkey, h, finish_ok]

theorem exec_egkey_of_mul_error {c : Cause}
    (h : mul (s.scalar sb) s.basePoint s.curveA s.curveP = .error c) :
    exec (.egkey pd sb) s = .next (s.takeFault .arith) := by
  rw [exec, execEgkey, h, mul_error h, finish_error]

theorem exec_egenc_of_ne (hne : pc1 ≠ pc2) :
    exec (.egenc pc1 pc2 pm sk pb) s =
      finish (encrypt (s.point pm) (s.scalar sk) s.curveA s.curveP s.basePoint (s.point pb))
        (writeCiphertext pc1 pc2) s := by
  rw [exec, execEgenc, if_neg hne]

theorem exec_egenc_of_encrypt_ok (hne : pc1 ≠ pc2) {C : Point × Point}
    (h : encrypt (s.point pm) (s.scalar sk) s.curveA s.curveP s.basePoint (s.point pb) = .ok C) :
    exec (.egenc pc1 pc2 pm sk pb) s = .next ((s.setPoint pc1 C.1).setPoint pc2 C.2).commit := by
  rw [exec_egenc_of_ne hne, h, finish_ok, writeCiphertext]

theorem exec_egdec_eq_finish :
    exec (.egdec pd pc1 pc2 sb) s =
      finish (decrypt (s.point pc1) (s.point pc2) (s.scalar sb) s.curveA s.curveP)
        (State.setPoint pd) s := by
  rw [exec, execEgdec]

theorem exec_egdec_of_decrypt_ok {M : Point}
    (h : decrypt (s.point pc1) (s.point pc2) (s.scalar sb) s.curveA s.curveP = .ok M) :
    exec (.egdec pd pc1 pc2 sb) s = .next (s.setPoint pd M).commit := by
  rw [exec_egdec_eq_finish, h, finish_ok]

end command

/-! ### The words (R92, R93): opcodes 0x30, 0x31 and 0x32, the fields that a command does not use 0 -/

theorem encode_egkey (pd : PtReg) (sb : ScReg) :
    encode (.egkey pd sb) = BitVec.ofNat 32 (0x30000000 + pd.val * 2 ^ 21 + sb.val * 2 ^ 18) := by
  simp [encode, packWord]

theorem encode_egenc (pc1 pc2 pm : PtReg) (sk : ScReg) (pb : PtReg) :
    encode (.egenc pc1 pc2 pm sk pb) =
      BitVec.ofNat 32 (0x31000000 + pc1.val * 2 ^ 21 + pc2.val * 2 ^ 18 + pm.val * 2 ^ 15
        + sk.val * 2 ^ 12 + pb.val * 2 ^ 9) := by
  simp [encode, packWord]

theorem encode_egdec (pd pc1 pc2 : PtReg) (sb : ScReg) :
    encode (.egdec pd pc1 pc2 sb) =
      BitVec.ofNat 32 (0x32000000 + pd.val * 2 ^ 21 + pc1.val * 2 ^ 18 + pc2.val * 2 ^ 15
        + sb.val * 2 ^ 12) := by
  simp [encode, packWord]

/-! ### The obligations -/

/-- Settles O35: `encrypt_ok_iff` says when the body has a result, `encrypt_total` that it has one for reduced
points; equal destinations do not decode. -/
theorem egencWritesTheCiphertext : Obligations.EgencWritesTheCiphertext := by
  intro s pc1 pc2 pm sk pb
  refine ⟨encode_egenc .., ?_, fun hne => ⟨?_, ?_, ?_⟩⟩
  · rintro rfl hrst hbusy hin hcmd
    exact step_of_illFormed hrst hbusy hin hcmd (bne_self_eq_false pc1)
  · intro S C1 C2 hS hC1 hC2
    exact exec_egenc_of_encrypt_ok (C := (C1, C2)) hne (encrypt_ok_iff.2 ⟨S, hS, hC1, hC2⟩)
  · intro hnone
    rw [exec_egenc_of_ne hne]
    refine finish_arith (fun _ => encrypt_error) ?_ ..
    rintro ⟨C, hC⟩
    obtain ⟨S, hS, hC1, hC2⟩ := encrypt_ok_iff.1 hC
    exact hnone ⟨S, C.1, C.2, hS, hC1, hC2⟩
  · intro hp h2 hG hPm hPb
    obtain ⟨C, hC⟩ := encrypt_total s.curveA hp h2 (s.scalar sk) hPm hG hPb
    exact ⟨C.1, C.2, exec_egenc_of_encrypt_ok hne hC⟩

/-- Settles O36: `decrypt_ok_iff` says when the body has a result, `decrypt_total` that it has one for reduced
points. -/
theorem egdecWritesTheMessagePoint : Obligations.EgdecWritesTheMessagePoint := by
  intro s pd pc1 pc2 sb
  refine ⟨encode_egdec .., ?_, ?_, ?_⟩
  · intro S N M hS hN hM
    exact exec_egdec_of_decrypt_ok (decrypt_ok_iff.2 ⟨S, N, hS, hN, hM⟩)
  · intro hnone
    rw [exec_egdec_eq_finish]
    refine finish_arith (fun _ => decrypt_error) ?_ ..
    rintro ⟨M, hM⟩
    obtain ⟨S, N, hS, hN, hM⟩ := decrypt_ok_iff.1 hM
    exact hnone ⟨S, N, M, hS, hN, hM⟩
  · intro hp h2 hC1 hC2
    obtain ⟨M, hM⟩ := decrypt_total s.curveA hp h2 (s.scalar sb) hC1 hC2
    exact ⟨M, exec_egdec_of_decrypt_ok hM⟩

/-- Settles O34: every clause by the value of `Mul`, the identity in the three corner cases and a point for
reduced `G` (`mul_total`). -/
theorem egkeyWritesThePublicKey : Obligations.EgkeyWritesThePublicKey := by
  intro s pd sb
  refine ⟨encode_egkey .., fun _ => exec_egkey_of_mul_ok, fun _ => exec_egkey_of_mul_error, ?_, ?_⟩
  · rintro (hk | hG | ⟨hk, hn⟩)
    · exact exec_egkey_of_mul_ok (by rw [hk, mul_zero])
    · exact exec_egkey_of_mul_ok (by rw [hG, mul_identity])
    · exact exec_egkey_of_mul_ok (by rw [hk, hn])
  · intro hp h2 hG
    obtain ⟨R, hR, -⟩ := mul_total s.curveA hp h2 (s.scalar sb) hG
    exact ⟨R, hR, exec_egkey_of_mul_ok hR⟩

end Sys2Proof.Machine
end

section
/-! Proofs/IllegalWord: a word that decodes is the word of the command it decodes to, so the word of no command
takes the fault `Illegal` (spec/30_encoding.md R91 to R97; spec/60_exceptions.md R184). -/

namespace Sys2Proof

/-! ### A word by its fields (R92, R93) -/

section word
variable {c : CmdWord} {op : Nat} (hop : opcodeField c = op)
include hop

theorem packWord_fields (h : c.toNat % 2 ^ 9 = 0) :
    packWord op (f0 c) (f1 c) (f2 c) (f3 c) (f4 c) = c := by
  have hlt := c.isLt
  unfold opcodeField at hop
  refine BitVec.eq_of_toNat_eq ?_
  rw [packWord_toNat op (by omega)]
  simp only [f0, f1, f2, f3, f4, selectField, Fin.val_ofNat]
  omega

theorem packWord_fields_of_f4_unused (h : c.toNat % 2 ^ 12 = 0) :
    packWord op (f0 c) (f1 c) (f2 c) (f3 c) 0 = c := by
  have hf4 : f4 c = 0 := (selectField_eq_iff 9 c 0).2 (by rw [Fin.val_zero]; omega)
  have hword := packWord_fields hop (by omega)
  rwa [hf4] at hword

theorem packWord_fields_of_f3_unused (h : c.toNat % 2 ^ 15 = 0) :
    packWord op (f0 c) (f1 c) (f2 c) 0 0 = c := by
  have hf3 : f3 c = 0 := (selectField_eq_iff 12 c 0).2 (by rw [Fin.val_zero]; omega)
  have hword := packWord_fields_of_f4_unused hop (by omega)
  rwa [hf3] at hword

theorem packWord_fields_of_f2_unused (h : c.toNat % 2 ^ 18 = 0) :
    packWord op (f0 c) (f1 c) 0 0 0 = c := by
  have hf2 : f2 c = 0 := (selectField_eq_iff 15 c 0).2 (by rw [Fin.val_zero]; omega)
  have hword := packWord_fields_of_f3_unused hop (by omega)
  rwa [hf2] at hword

end word

/-- The command that a selected word's fields name has that word (R93, R94). -/
theorem encode_operandsOf {c : CmdWord} {row : OpcodeRow} (hmem : row ∈ opcodeRows)
    (hsel : row.selects c = true) : encode (operandsOf row.mnemonic c) = c := by
  obtain ⟨hop, hlow⟩ := (OpcodeRow.selects_iff c hmem).1 hsel
  simp only [opcodeRows, List.mem_cons, List.not_mem_nil, or_false] at hmem
  rcases hmem with rfl | rfl | rfl | rfl | rfl | rfl | rfl | rfl | rfl | rfl
  · exact packWord_fields_of_f3_unused hop hlow
  · exact packWord_fields_of_f3_unused hop hlow
  · exact packWord_fields_of_f2_unused hop hlow
  · exact packWord_fields_of_f3_unused hop hlow
  · exact packWord_fields_of_f2_unused hop hlow
  · exact packWord_fields hop hlow
  · exact packWord_fields_of_f4_unused hop hlow
  · exact packWord_fields_of_f2_unused hop hlow
  · exact packWord_fields_of_f4_unused hop hlow
  · exact packWord_fields_of_f4_unused hop hlow

/-- A word that decodes is the word of the command it decodes to. -/
theorem encode_of_decode_ok {c : CmdWord} {i : Instr} (h : decode c = .ok i) :
    i.wellFormed = true ∧ encode i = c := by
  unfold decode at h
  split at h
  · cases h
  · next row hrow =>
    split at h
    · next hwf =>
      cases h
      exact ⟨hwf, encode_operandsOf (List.mem_of_find?_eq_some hrow) (by simpa using List.find?_some hrow)⟩
    · cases h

theorem decode_error_of_not_encoding {c : CmdWord}
    (h : ∀ i : Instr, i.wellFormed = true → encode i ≠ c) : ∃ e, decode c = .error e := by
  cases hd : decode c with
  | error e => exact ⟨e, rfl⟩
  | ok i =>
    obtain ⟨hwf, henc⟩ := encode_of_decode_ok hd
    exact absurd henc (h i hwf)

end Sys2Proof

namespace Sys2Proof.Machine

/-- Settles O10: the word does not decode (`decode_error_of_not_encoding`), and a running word that does not
decode takes the fault (`step_of_decode_error`). -/
theorem illegalWordTakesTheFault : Obligations.IllegalWordTakesTheFault := by
  intro s hrst hbusy hin hword
  obtain ⟨e, he⟩ := decode_error_of_not_encoding hword
  exact step_of_decode_error hrst hbusy hin he

end Sys2Proof.Machine
end

section
/-! Proofs/FaultNesting: only a running command writes `ERRCODE` and `ERRCMD`, and none runs while `ERR = 1`
(spec/60_exceptions.md R189). -/

namespace Sys2Proof.Machine

/-- The registers that record a fault hold in `t` what they hold in `s` (R28, R29). -/
def State.SameFaultRecord (s t : State) : Prop := t.errcode = s.errcode ∧ t.errcmd = s.errcmd

theorem writeReg_sameFaultRecord (reg : HostReg) (v : Nat) (s : State) :
    s.SameFaultRecord (s.writeReg reg v) := by
  cases reg <;> exact ⟨rfl, rfl⟩

theorem hostWrite_sameFaultRecord (r : RegNum) (v : Nat) (s : State) :
    s.SameFaultRecord (hostWrite r v s) := by
  rcases hostWrite_cases r v s with ⟨-, h⟩ | ⟨-, h⟩ | h | ⟨-, -, -, h⟩ | ⟨-, reg, -, -, -, -, -, h⟩ <;> rw [h]
  · exact ⟨rfl, rfl⟩
  · exact ⟨rfl, rfl⟩
  · exact ⟨rfl, rfl⟩
  · exact ⟨rfl, rfl⟩
  · exact writeReg_sameFaultRecord reg v s

theorem portRead_sameFaultRecord (r : RegNum) (s : State) : s.SameFaultRecord (portRead r s) := by
  unfold portRead
  split
  · exact ⟨rfl, rfl⟩
  · exact ⟨rfl, rfl⟩

theorem portWrite_sameFaultRecord (r : RegNum) (v : Nat) (s : State) :
    s.SameFaultRecord (portWrite r v s) := by
  unfold portWrite
  split
  · exact hostWrite_sameFaultRecord r v s
  · exact ⟨rfl, rfl⟩

theorem sequencer_idle {s : State} (hidle : s.status.busy = false) : sequencer s = .next s := by
  rw [sequencer, hidle, Bool.and_false, if_neg Bool.false_ne_true]

theorem sequencer_idle_sameFaultRecord {s t : State} (hidle : s.status.busy = false)
    (h : sequencer s = .next t) : s.SameFaultRecord t := by
  rw [sequencer_idle hidle] at h
  cases h
  exact ⟨rfl, rfl⟩

/-- Without a running command every step but a fall of `rst_n` keeps the record of the last fault. -/
theorem step_idle_sameFaultRecord {s t : State} (hidle : s.status.busy = false)
    (h : step s = .next t) : s.SameFaultRecord t ∨ t.rstN = false := by
  rcases step_cases h with ⟨-, hseq⟩ | ⟨i, rest, -, ⟨-, hseq⟩ | ⟨r, -, rfl⟩ | ⟨r, v, -, rfl⟩ | ⟨c, -, rfl⟩ |
    ⟨-, rfl⟩ | ⟨-, rfl⟩⟩
  · exact .inl (sequencer_idle_sameFaultRecord hidle hseq)
  · exact .inl (sequencer_idle_sameFaultRecord (s := { s with inputs := rest }) hidle hseq)
  · exact .inl (portRead_sameFaultRecord r { s with inputs := rest })
  · exact .inl (portWrite_sameFaultRecord r v { s with inputs := rest })
  · exact .inl ⟨rfl, rfl⟩
  · exact .inl ⟨rfl, rfl⟩
  · exact .inr rfl

theorem State.Inv.idle_of_err {s : State} (hinv : s.Inv) (herr : s.status.err = true) :
    s.status.busy = false := by
  by_contra hbusy
  obtain ⟨hclean, -⟩ := hinv.busyClean (by simpa using hbusy)
  simp [herr] at hclean

/-- R25: no command is accepted before `ERR` is acknowledged. -/
theorem hostWrite_cmd_of_err {s : State} (herr : s.status.err = true) (v : Nat) :
    hostWrite 0x00 v s = s.dropWrite := by
  have hmap : regMap 0x00 = some .cmd := rfl
  simp [hostWrite, hmap, HostReg.readOnly, State.issue, herr]

/-- Settles O55: the invariant says that no command runs, `hostWrite_cmd_of_err` that none starts, and
`step_idle_sameFaultRecord` what the steps then keep. -/
theorem faultsNeverNest : Obligations.FaultsNeverNest := fun _ _ hinv herr =>
  have hidle := hinv.idle_of_err herr
  ⟨hidle, hostWrite_cmd_of_err herr, step_idle_sameFaultRecord hidle⟩

end Sys2Proof.Machine
end

section
/-! Proofs/EmptyRange: `[1, CURVE_N - 1]` is empty for `CURVE_N < 2`, so nothing can be drawn from it and no half
of a signature lies in it (spec/60_exceptions.md R186). -/

namespace Sys2Proof.Machine

theorem inSignatureRange_of_lt_two {n : Nat} (hn : n < 2) (v : Nat) : inSignatureRange v n = false := by
  simp only [inSignatureRange, Bool.and_eq_false_iff, decide_eq_false_iff_not]
  omega

theorem verify_emptyRange {n : Nat} (hn : n < 2) (r s z : Nat) (Q G : Point) (a p : Nat) :
    verify r s z Q n G a p = .ok .failRange := by
  simp [verify, inSignatureRange_of_lt_two hn]

theorem exec_dsavfy_of_verify_ok {sr ss sz : ScReg} {pq : PtReg} {s : State} {v : Verdict}
    (h : verify (s.scalar sr) (s.scalar ss) (s.scalar sz) (s.point pq) s.curveN s.basePoint
      s.curveA s.curveP = .ok v) :
    exec (.dsavfy sr ss sz pq) s = .next (writeVerdict v s).commit := by
  rw [exec, execDsavfy, h]

/-- Settles O39: `drawLoop_emptyRange` for the two commands that draw, `verify_emptyRange` for `DSAVFY`. -/
theorem emptyRangeFaultsBeforeAnyDraw : Obligations.EmptyRangeFaultsBeforeAnyDraw := by
  intro s hn
  refine ⟨fun sd pq => ?_, fun sr ss sz sd hne => ?_, fun sr ss sz pq => ?_⟩
  · exact drawLoop_emptyRange _ _ hn
  · rw [exec, execDsasgn, if_neg hne, drawLoop_emptyRange _ _ hn]
  · exact ⟨_, exec_dsavfy_of_verify_ok (verify_emptyRange hn ..), rfl⟩

end Sys2Proof.Machine
end

section
/-! Proofs/Invariant: `State.Inv` holds after reset and every step keeps it. A command ends by `commit` or
`takeFault`, which need only that registers fit and that the verdict is consistent; a turn of a draw loop that
goes on is bounded by `mayDraw` (spec/00_scope.md R8; spec/10_state.md R25 to R42; spec/60_exceptions.md R183,
R185). -/

namespace Sys2Proof.Machine

/-! ### Values that reach a register through the ports fit `W` bits, `W` being at least 32 (R6, R62) -/

theorem fitsIn_W_of_lt {v : Nat} (h : v < 2 ^ 32) : fitsIn Config.W v :=
  lt_of_lt_of_le h (Nat.pow_le_pow_right (by omega) (by unfold Config.W; omega))

theorem fitsIn_W_bitVec {n : Nat} (hn : n ≤ 32) (x : BitVec n) : fitsIn Config.W x.toNat :=
  fitsIn_W_of_lt (lt_of_lt_of_le x.isLt (Nat.pow_le_pow_right (by omega) hn))

theorem fitsIn_W_bool (b : Bool) : fitsIn Config.W b.toNat :=
  fitsIn_W_of_lt (by have := b.toNat_lt; omega)

theorem Status.value_lt (st : Status) : st.value < 64 := by
  have := st.busy.toNat_lt; have := st.done.toNat_lt; have := st.err.toNat_lt
  have := st.herr.toNat_lt; have := st.v.toNat_lt; have := st.rnge.toNat_lt
  unfold Status.value
  omega

theorem Ctrl.value_lt (c : Ctrl) : c.value < 4 := by
  have := c.die.toNat_lt; have := c.eie.toNat_lt
  unfold Ctrl.value
  omega

theorem State.FitsWidth.readReg {s : State} (h : s.FitsWidth Config.W) (reg : HostReg) :
    fitsIn Config.W (s.readReg reg) := by
  cases reg with
  | cmd => exact fitsIn_W_bitVec (by omega) s.cmd
  | status => exact fitsIn_W_of_lt (lt_trans s.status.value_lt (by omega))
  | errcode => exact fitsIn_W_bitVec (by omega) s.errcode
  | errcmd => exact fitsIn_W_bitVec (by omega) s.errcmd
  | ctrl => exact fitsIn_W_of_lt (lt_trans s.ctrl.value_lt (by omega))
  | retryLimit => exact fitsIn_W_bitVec (by omega) s.retryLimit
  | retryCount => exact fitsIn_W_bitVec (by omega) s.retryCount
  | curveP => exact h.curveP
  | curveA => exact h.curveA
  | curveB => exact h.curveB
  | curveN => exact h.curveN
  | gX => exact h.g.1
  | gY => exact h.g.2
  | gInf => exact fitsIn_W_bool s.g.inf
  | sc i => exact h.sc i
  | ptX i => exact (h.pt i).1
  | ptY i => exact (h.pt i).2
  | ptInf i => exact fitsIn_W_bool (s.pointReg i).inf

theorem State.FitsWidth.hostRead {s : State} (h : s.FitsWidth Config.W) (r : RegNum) :
    fitsIn Config.W (hostRead r s) := by
  unfold Sys2Proof.Machine.hostRead
  split
  · exact Nat.two_pow_pos _
  · exact h.readReg _

/-- Registers that are not `W` bits wide do not matter to the bound. -/
theorem State.FitsWidth.setControl {w : Nat} {s : State} (h : s.FitsWidth w) (cmd : CmdWord)
    (status : Status) (errcode : BitVec 4) (errcmd : CmdWord) (ctrl : Ctrl) (limit count : Half)
    (attempts : Nat) (rstN : Bool) :
    State.FitsWidth w
      { s with
        cmd := cmd, status := status, errcode := errcode, errcmd := errcmd, ctrl := ctrl
        retryLimit := limit, retryCount := count, attempts := attempts, rstN := rstN } :=
  { h with sc := h.sc, pt := h.pt }

/-- The bound of a request is the only hidden value of `W` bits. -/
theorem State.FitsWidth.setRequest {w : Nat} {s : State} (h : s.FitsWidth w) {r : Option Nat}
    (hr : ∀ b, r = some b → fitsIn w b) : State.FitsWidth w { s with rndReq := r } :=
  { h with sc := h.sc, pt := h.pt, rndReq := hr }

theorem State.FitsWidth.dropHidden {w : Nat} {s : State} (h : s.FitsWidth w) :
    s.dropHidden.FitsWidth w :=
  (h.setRequest (r := none) (fun _ hb => by cases hb)).setControl ..

theorem State.FitsWidth.requestDraw {w b : Nat} {s : State} (h : s.FitsWidth w) (hb : fitsIn w b) :
    (s.requestDraw b).FitsWidth w :=
  (h.setRequest (r := some b) (fun _ hr => by cases hr; exact hb)).setControl ..

theorem State.FitsWidth.setPointReg {w : Nat} {s : State} (h : s.FitsWidth w) (i : PtReg)
    {r : PointReg} (hr : fitsIn w r.x ∧ fitsIn w r.y) : (s.setPointReg i r).FitsWidth w :=
  { h with
    sc := h.sc
    pt := fun j => by
      rw [State.pointReg_setPointReg]
      split
      · exact hr
      · exact h.pt j }

theorem State.FitsWidth.writeReg {w v : Nat} {s : State} (h : s.FitsWidth w) (reg : HostReg)
    (hv : fitsIn w v) : (s.writeReg reg v).FitsWidth w := by
  cases reg with
  | retryLimit => exact h.setControl ..
  | curveP => exact { h with sc := h.sc, pt := h.pt, curveP := hv }
  | curveA => exact { h with sc := h.sc, pt := h.pt, curveA := hv }
  | curveB => exact { h with sc := h.sc, pt := h.pt, curveB := hv }
  | curveN => exact { h with sc := h.sc, pt := h.pt, curveN := hv }
  | gX => exact { h with sc := h.sc, pt := h.pt, g := ⟨hv, h.g.2⟩ }
  | gY => exact { h with sc := h.sc, pt := h.pt, g := ⟨h.g.1, hv⟩ }
  | gInf => exact { h with sc := h.sc, pt := h.pt }
  | sc i => exact h.setScalar i hv
  | ptX i => exact h.setPointReg i ⟨hv, (h.pt i).2⟩
  | ptY i => exact h.setPointReg i ⟨(h.pt i).1, hv⟩
  | ptInf i => exact h.setPointReg i (h.pt i)
  | cmd | status | errcode | errcmd | ctrl | retryCount => exact h

/-- A draw leaves all registers of `W` bits, and fewer answers on offer. -/
theorem State.FitsWidth.drawn {w c : Nat} {rest : List Nat} {s : State} (h : s.FitsWidth w)
    (he : s.entropy = c :: rest) : (s.drawn rest).FitsWidth w :=
  { h with
    sc := h.sc
    pt := h.pt
    rndReq := fun _ hb => by cases hb
    entropy := fun x hx => h.entropy x (by rw [he]; exact List.mem_cons_of_mem c hx) }

/-! ### The reset values (R39, R42) -/

@[simp] theorem State.scalar_reset (i : ScReg) : State.reset.scalar i = 0 := by
  simp [State.scalar, State.reset]

@[simp] theorem State.pointReg_reset (i : PtReg) : State.reset.pointReg i = PointReg.identity := by
  simp [State.pointReg, State.reset]

theorem reset_fitsWidth : State.reset.FitsWidth Config.W :=
  have hzero : fitsIn Config.W 0 := Nat.two_pow_pos _
  { sc := fun i => (State.scalar_reset i).symm ▸ hzero
    pt := fun i => (State.pointReg_reset i).symm ▸ ⟨hzero, hzero⟩
    curveP := hzero
    curveA := hzero
    curveB := hzero
    curveN := hzero
    g := ⟨hzero, hzero⟩
    rndReq := fun _ hb => by cases hb
    hRdata := hzero
    inputs := fun _ hi => by cases hi
    entropy := fun _ hc => by cases hc }

/-! ### The two ways a command ends -/

theorem Cause.code_toNat_le (c : Cause) : c.code.toNat ≤ 4 := by cases c <;> decide

theorem Cause.code_ne_zero (c : Cause) : c.code ≠ 0#4 := by cases c <;> decide

section ends
variable {u : State} {c : Cause} (hfits : u.FitsWidth Config.W) (hrst : u.rstN = true)
  (hv : u.status.v = true → u.status.rnge = false)
include hfits hrst hv

theorem inv_takeFault : (u.takeFault c).Inv where
  fits := hfits.dropHidden.setControl ..
  busyClean := by simp
  idleHidden := by simp
  verdict := hv
  causeRange := c.code_toNat_le
  errCause := fun _ => c.code_ne_zero
  capped := by simp
  request := by simp
  inReset := by simp [hrst]

theorem inv_commit (herr : u.status.err = false) (hcause : u.errcode.toNat ≤ 4) : u.commit.Inv where
  fits := hfits.dropHidden.setControl ..
  busyClean := by simp
  idleHidden := by simp
  verdict := hv
  causeRange := hcause
  errCause := by simp [herr]
  capped := by simp
  request := by simp
  inReset := by simp [hrst]

end ends

/-! ### A running command -/

theorem State.Inv.takeFault {s : State} (hinv : s.Inv) (hrst : s.rstN = true) (c : Cause) :
    (s.takeFault c).Inv :=
  inv_takeFault hinv.fits hrst hinv.verdict

theorem State.Inv.attemptNumber_le {s : State} (hinv : s.Inv) (hbusy : s.status.busy = true)
    (hd : s.mayDraw) (hl : s.retryLimit ≠ 0#16) : s.attemptNumber ≤ s.retryLimit.toNat := by
  have hcap := hinv.capped hbusy hl
  unfold State.attemptNumber
  split
  · next hr =>
    rcases hd with h | h | h
    · exact absurd hr h
    · exact absurd h hl
    · omega
  · exact hcap

/-- A command commits with its destinations written; it runs only while `ERR` is clear. -/
theorem State.Inv.commit_writes {s p u : State} {i : Instr} (hinv : s.Inv)
    (hbusy : s.status.busy = true) (hw : Writes i p u) (hfits : p.FitsWidth Config.W)
    (hst : p.status = s.status) (hcause : p.errcode = s.errcode) (hrst : p.rstN = true) :
    u.commit.Inv := by
  obtain ⟨sc, pt, hu, -, -, hkeep⟩ := hw
  have hstatus : u.status = s.status := by rw [hu, ← hst]
  refine inv_commit (hkeep _ hfits) (by rw [hu]; exact hrst) ?_ ?_ ?_
  · rw [hstatus]; exact hinv.verdict
  · rw [hstatus]; exact (hinv.busyClean hbusy).1
  · rw [hu]; exact hcause ▸ hinv.causeRange

section running
variable {s : State} (hinv : s.Inv) (hrst : s.rstN = true) (hbusy : s.status.busy = true)
include hinv hrst hbusy

/-- A new request is within the cap and for a range that is not empty (R75, R183). -/
theorem State.Inv.requestDraw (hn : 2 ≤ s.curveN) (hd : s.mayDraw) (hr : s.rndReq = none) :
    (s.requestDraw (s.curveN - 1)).Inv :=
  { hinv with
    fits := hinv.fits.requestDraw (lt_of_le_of_lt (Nat.sub_le ..) hinv.fits.curveN)
    idleHidden := fun h => nomatch hbusy.symm.trans h
    capped := fun _ hl => by
      have hle := hinv.attemptNumber_le hbusy hd hl
      rwa [State.attemptNumber, if_pos hr] at hle
    request := fun b hb => by cases hb; exact ⟨hn, rfl, Nat.le_add_left ..⟩
    inReset := fun h => nomatch hrst.symm.trans h }

/-- A rejected attempt leaves the loop running within the cap (R183). -/
theorem State.Inv.drawn {c : Nat} {rest : List Nat} (hd : s.mayDraw) (he : s.entropy = c :: rest) :
    (s.drawn rest).Inv :=
  { hinv with
    fits := hinv.fits.drawn he
    idleHidden := fun h => nomatch hbusy.symm.trans h
    capped := fun _ => hinv.attemptNumber_le hbusy hd
    request := fun _ hb => by cases hb
    inReset := fun h => nomatch hrst.symm.trans h }

theorem State.Inv.drawTurn {i : Instr} {t : State} (h : DrawTurn i s t) : t.Inv := by
  rcases h with ⟨-, rfl⟩ | ⟨-, -, -, -, rfl⟩ | ⟨hn, hd, -, ⟨hr, rfl⟩ | ⟨-, rfl⟩⟩ |
    ⟨-, hd, c, rest, he, rfl | ⟨u, hw, rfl⟩ | rfl⟩
  · exact inv_takeFault (hinv.fits.setControl ..) hrst hinv.verdict
  · exact inv_takeFault (hinv.fits.setControl ..) hrst hinv.verdict
  · exact hinv.requestDraw hrst hbusy hn hd hr
  · exact hinv
  · exact hinv.drawn hrst hbusy hd he
  · exact hinv.commit_writes hbusy hw ((hinv.fits.drawn he).setControl ..) rfl rfl hrst
  · exact inv_takeFault ((hinv.fits.drawn he).setControl ..) hrst hinv.verdict

/-- R27: a verdict that a command writes sets at most one of `V` and `RNGE`. -/
theorem State.Inv.exec {i : Instr} {t : State} (h : exec i s = .next t) : t.Inv := by
  have hverdict (v : Verdict) : (writeVerdict v s).status.v = true →
      (writeVerdict v s).status.rnge = false := by cases v <;> simp
  rcases exec_cases h with ⟨-, rfl⟩ | ⟨-, -, ⟨u, hw, rfl⟩ | rfl⟩ | ⟨-, -, ⟨v, rfl⟩ | rfl⟩ | ⟨-, -, hturn⟩
  · exact hinv.takeFault hrst _
  · exact hinv.commit_writes hbusy hw hinv.fits rfl rfl hrst
  · exact hinv.takeFault hrst _
  · exact inv_commit (hinv.fits.setControl ..) hrst (hverdict v) (hinv.busyClean hbusy).1 hinv.causeRange
  · exact inv_takeFault (hinv.fits.setControl ..) hrst (hverdict .fail)
  · exact hinv.drawTurn hrst hbusy hturn

end running

theorem State.Inv.sequencer {s t : State} (hinv : s.Inv) (h : sequencer s = .next t) : t.Inv := by
  rcases sequencer_cases h with ⟨-, rfl⟩ | ⟨hrst, hbusy, ⟨e, -, rfl⟩ | ⟨i, -, hexec⟩⟩
  · exact hinv
  · exact hinv.takeFault hrst _
  · exact hinv.exec hrst hbusy hexec

/-! ### The host, the entropy source and reset -/

/-- The state once a step has used up the oldest entry of its schedule. -/
theorem State.Inv.popInput {s : State} {i : Input} {rest : List Input} (hinv : s.Inv)
    (hin : s.inputs = i :: rest) : State.Inv { s with inputs := rest } :=
  { hinv with
    fits :=
      { hinv.fits with
        sc := hinv.fits.sc
        pt := hinv.fits.pt
        inputs := fun j hj => hinv.fits.inputs j (by rw [hin]; exact List.mem_cons_of_mem i hj) }
    inReset := fun h => congrArg (fun u : State => { u with inputs := rest }) (hinv.inReset h) }

theorem State.Inv.offerAnswer {s : State} {c : Nat} (hinv : s.Inv) (hc : fitsIn Config.W c) :
    (s.offerAnswer c).Inv :=
  { hinv with
    fits :=
      { hinv.fits with
        sc := hinv.fits.sc
        pt := hinv.fits.pt
        entropy := fun x hx => by
          rcases List.mem_append.1 hx with hx | hx
          · exact hinv.fits.entropy x hx
          · rw [List.mem_singleton.1 hx]; exact hc }
    inReset := fun h => congrArg (State.offerAnswer c) (hinv.inReset h) }

/-- Reset reaches a state of the invariant from every state whose schedule fits the ports. -/
theorem State.FitsWidth.inv_assertReset {s : State} (h : s.FitsWidth Config.W) : s.assertReset.Inv where
  fits :=
    { reset_fitsWidth with
      sc := reset_fitsWidth.sc
      pt := reset_fitsWidth.pt
      inputs := h.inputs
      entropy := h.entropy }
  busyClean := fun h => by cases h
  idleHidden := fun _ => ⟨rfl, rfl⟩
  verdict := fun h => by cases h
  causeRange := Nat.zero_le _
  errCause := fun h => by cases h
  capped := fun h => by cases h
  request := fun _ h => by cases h
  inReset := fun _ => rfl

theorem State.Inv.raiseReset {s : State} (hinv : s.Inv) : State.Inv { s with rstN := true } :=
  { hinv with
    fits := hinv.fits.setControl ..
    inReset := fun h => by cases h }

section host
variable {s : State} (hinv : s.Inv) (hrst : s.rstN = true)
include hinv hrst

theorem State.Inv.setHRdata (r : RegNum) : State.Inv { s with hRdata := hostRead r s } :=
  { hinv with
    fits := { hinv.fits with sc := hinv.fits.sc, pt := hinv.fits.pt, hRdata := hinv.fits.hostRead r }
    inReset := fun h => nomatch hrst.symm.trans h }

theorem State.Inv.acknowledge (v : Nat) : (s.acknowledge v).Inv :=
  { hinv with
    fits := hinv.fits.setControl ..
    busyClean := fun h => by
      obtain ⟨herr, hdone⟩ := hinv.busyClean h
      simp [herr, hdone]
    errCause := fun h => hinv.errCause (Bool.and_eq_true_iff.1 h).1
    inReset := fun h => nomatch hrst.symm.trans h }

theorem State.Inv.setCtrl (c : Ctrl) : State.Inv { s with ctrl := c } :=
  { hinv with
    fits := hinv.fits.setControl ..
    inReset := fun h => nomatch hrst.symm.trans h }

theorem State.Inv.dropWrite : s.dropWrite.Inv :=
  { hinv with
    fits := hinv.fits.setControl ..
    inReset := fun h => nomatch hrst.symm.trans h }

theorem State.Inv.accept (herr : s.status.err = false) (c : CmdWord) : (s.accept c).Inv :=
  { hinv with
    fits := hinv.fits.dropHidden.setControl ..
    busyClean := fun _ => ⟨herr, rfl⟩
    idleHidden := fun h => by cases h
    capped := fun _ _ => Nat.zero_le _
    request := fun _ hb => by cases hb
    inReset := fun h => nomatch hrst.symm.trans h }

/-- No draw loop runs while the machine is idle, so a new `RETRY_LIMIT` or `CURVE_N` breaks no bound. -/
theorem State.Inv.writeReg (hidle : s.status.busy = false) (reg : HostReg) {v : Nat}
    (hv : fitsIn Config.W v) : (s.writeReg reg v).Inv := by
  have hfits := hinv.fits.writeReg reg hv
  have hframe : (s.writeReg reg v).status = s.status ∧ (s.writeReg reg v).errcode = s.errcode ∧
      (s.writeReg reg v).attempts = s.attempts ∧ (s.writeReg reg v).rndReq = s.rndReq ∧
      (s.writeReg reg v).rstN = s.rstN := by
    cases reg <;> exact ⟨rfl, rfl, rfl, rfl, rfl⟩
  obtain ⟨hst, hec, hat, hreq, hrs⟩ := hframe
  obtain ⟨hatt, hnone⟩ := hinv.idleHidden hidle
  constructor
  case fits => exact hfits
  case busyClean => rw [hst]; exact hinv.busyClean
  case idleHidden => rw [hst, hat, hreq]; exact hinv.idleHidden
  case verdict => rw [hst]; exact hinv.verdict
  case causeRange => rw [hec]; exact hinv.causeRange
  case errCause => rw [hst, hec]; exact hinv.errCause
  case capped => rw [hat, hatt]; exact fun _ _ => Nat.zero_le _
  case request => rw [hreq, hnone]; exact fun _ hb => by cases hb
  case inReset => rw [hrs]; exact fun h => nomatch hrst.symm.trans h

theorem State.Inv.hostWrite (r : RegNum) {v : Nat} (hv : fitsIn Config.W v) :
    (hostWrite r v s).Inv := by
  rcases hostWrite_cases r v s with ⟨-, h⟩ | ⟨-, h⟩ | h | ⟨-, herr, -, h⟩ |
    ⟨hidle, reg, -, -, -, -, -, h⟩ <;> rw [h]
  · exact hinv.acknowledge hrst v
  · exact hinv.setCtrl hrst _
  · exact hinv.dropWrite hrst
  · exact hinv.accept hrst herr _
  · exact hinv.writeReg hrst hidle reg hv

end host

theorem State.Inv.portRead {s : State} (hinv : s.Inv) (r : RegNum) : (portRead r s).Inv := by
  unfold Sys2Proof.Machine.portRead
  split
  · next hready => exact hinv.setHRdata hready r
  · exact hinv

theorem State.Inv.portWrite {s : State} (hinv : s.Inv) (r : RegNum) {v : Nat}
    (hv : fitsIn Config.W v) : (portWrite r v s).Inv := by
  unfold Sys2Proof.Machine.portWrite
  split
  · next hready => exact hinv.hostWrite hready r hv
  · exact hinv

/-- Settles O3: one lemma for each thing a step can be (`step_cases`). -/
theorem stepKeepsInvariant : Obligations.StepKeepsInvariant := by
  intro s t hinv hstep
  rcases step_cases hstep with ⟨-, hseq⟩ | ⟨i, rest, hin, hi⟩
  · exact hinv.sequencer hseq
  have hpop := hinv.popInput hin
  have hfit : i.FitsWidth Config.W := hinv.fits.inputs i (by simp [hin])
  rcases hi with ⟨-, hseq⟩ | ⟨r, -, rfl⟩ | ⟨r, v, rfl, rfl⟩ | ⟨c, rfl, rfl⟩ | ⟨-, rfl⟩ | ⟨-, rfl⟩
  · exact hpop.sequencer hseq
  · exact hpop.portRead r
  · exact hpop.portWrite r hfit
  · exact hpop.offerAnswer hfit
  · exact hpop.raiseReset
  · exact hpop.fits.inv_assertReset

/-- Settles O2: the state after reset is the state in reset with `rst_n` raised. -/
theorem resetMeetsInvariant : Obligations.ResetMeetsInvariant :=
  reset_fitsWidth.inv_assertReset.raiseReset

end Sys2Proof.Machine
end

section
/-! Proofs/Steps: what a step is for each entry of the schedule, that every step has a result, and reset, which
is two of those entries (spec/10_state.md R20, R42; spec/70_reset_and_hazards.md R210, R224; log entries 2, 13). -/

namespace Sys2Proof.Machine

/-! ### A step by the oldest entry of the schedule -/

section entries
variable {s : State} {rest : List Input}

theorem step_of_no_inputs (h : s.inputs = []) : step s = sequencer s := by
  simp only [step, h]

theorem step_quiet (h : s.inputs = .quiet :: rest) : step s = sequencer { s with inputs := rest } := by
  simp only [step, h]

theorem step_read {r : RegNum} (h : s.inputs = .read r :: rest) :
    step s = .next (portRead r { s with inputs := rest }) := by
  simp only [step, h]

theorem step_write {r : RegNum} {v : Nat} (h : s.inputs = .write r v :: rest) :
    step s = .next (portWrite r v { s with inputs := rest }) := by
  simp only [step, h]

theorem step_rstN {level : Bool} (h : s.inputs = .rstN level :: rest) :
    step s = .next (State.setReset level { s with inputs := rest }) := by
  simp only [step, h]

end entries

theorem sequencer_of_decode_ok {s : State} {i : Instr} (hrst : s.rstN = true)
    (hbusy : s.status.busy = true) (hd : decode s.cmd = .ok i) : sequencer s = exec i s := by
  simp only [sequencer, hrst, hbusy, hd, Bool.and_self, if_true]

/-- Settles O9: both clauses by `sequencer_of_decode_ok`. -/
theorem stepRunsTheDecodedCommand : Obligations.StepRunsTheDecodedCommand := fun s _ hrst hbusy hd =>
  ⟨fun h => (step_of_no_inputs h).trans (sequencer_of_decode_ok hrst hbusy hd),
    fun rest h => (step_quiet h).trans
      (sequencer_of_decode_ok (s := { s with inputs := rest }) hrst hbusy hd)⟩

theorem portRead_of_ready {s : State} (hrst : s.rstN = true) (r : RegNum) :
    portRead r s = { s with hRdata := hostRead r s } := if_pos hrst

theorem portWrite_of_ready {s : State} (hrst : s.rstN = true) (r : RegNum) (v : Nat) :
    portWrite r v s = hostWrite r v s := if_pos hrst

/-- No register is read from the schedule. -/
theorem hostRead_setInputs (r : RegNum) (s : State) (l : List Input) :
    hostRead r { s with inputs := l } = hostRead r s := by
  unfold hostRead
  split
  · rfl
  · next reg _ => cases reg <;> rfl

/-- Settles O11: a performed read and write (`portRead_of_ready`, `portWrite_of_ready`), and the idle sequencer. -/
theorem hostTransactionIsOneStep : Obligations.HostTransactionIsOneStep := by
  intro s rest hrst
  refine ⟨fun r h => ?_, fun r v h => ?_, fun h hidle => ?_⟩
  · rw [step_read h, portRead_of_ready (s := { s with inputs := rest }) hrst, hostRead_setInputs]
  · rw [step_write h, portWrite_of_ready (s := { s with inputs := rest }) hrst]
  · rw [step_of_no_inputs h, sequencer_idle hidle]

/-! ### Nothing stops the machine (R5) -/

theorem exec_next (i : Instr) (s : State) : ∃ t, exec i s = .next t := by
  cases i with
  | egenc pc1 pc2 pm sk pb =>
    by_cases hd : pc1 = pc2
    · exact ⟨_, if_pos hd⟩
    · rw [exec_egenc_of_ne hd]
      exact finish_next ..
  | dsasgn sr ss sz sd =>
    by_cases hd : sr = ss
    · exact ⟨_, if_pos hd⟩
    · rw [exec, execDsasgn, if_neg hd]
      exact drawLoop_next ..
  | dsakg sd pq => exact drawLoop_next ..
  | dsavfy sr ss sz pq =>
    rw [exec, execDsavfy]
    split
    · exact ⟨_, rfl⟩
    · exact ⟨_, rfl⟩
  | minv | padd | pneg | pmul | egkey | egdec => exact finish_next ..

/-- Only equal destinations make a command ill-formed, and `exec` tests for them itself (R97; log entry 8). -/
theorem exec_of_illFormed {i : Instr} (h : i.wellFormed = false) (s : State) :
    exec i s = .next (s.takeFault .illegal) := by
  cases i with
  | egenc pc1 pc2 pm sk pb => exact if_pos (by simpa [Instr.wellFormed] using h)
  | dsasgn sr ss sz sd => exact if_pos (by simpa [Instr.wellFormed] using h)
  | minv | padd | pneg | pmul | egkey | egdec | dsakg | dsavfy => cases h

theorem sequencer_next (s : State) : ∃ t, sequencer s = .next t := by
  unfold sequencer
  split
  · split
    · exact exec_next ..
    · exact ⟨_, rfl⟩
  · exact ⟨_, rfl⟩

theorem step_next (s : State) : ∃ t, step s = .next t := by
  unfold step
  split
  · exact sequencer_next _
  · exact sequencer_next _
  all_goals exact ⟨_, rfl⟩

/-- Settles O12: `exec_next`, `exec_of_illFormed` and `step_next`. -/
theorem nothingStopsTheMachine : Obligations.NothingStopsTheMachine :=
  ⟨exec_next, fun _ s h => exec_of_illFormed h s, step_next⟩

/-! ### Reset (R42, R210) -/

theorem reset_holdsResetValues : State.reset.HoldsResetValues where
  sc := State.scalar_reset
  pt := State.pointReg_reset
  curve := ⟨rfl, rfl, rfl, rfl⟩
  g := rfl
  cmd := rfl
  status := rfl
  errcode := rfl
  errcmd := rfl
  ctrl := rfl
  retryLimit := rfl
  retryCount := rfl
  hidden := ⟨rfl, rfl⟩
  irq := rfl

/-- The level of `rst_n`, what the last read gave and what the outside does next have no reset value. -/
theorem State.HoldsResetValues.setOutside {s : State} (h : s.HoldsResetValues) (level : Bool)
    (rdata : Nat) (l : List Input) (answers : List Nat) :
    State.HoldsResetValues { s with rstN := level, hRdata := rdata, inputs := l, entropy := answers } :=
  { h with sc := h.sc, pt := h.pt, irq := h.irq }

theorem assertReset_holdsResetValues (s : State) : s.assertReset.HoldsResetValues :=
  reset_holdsResetValues.setOutside ..

/-- Settles O1: the two levels of `rst_n` as steps (`step_rstN`). -/
theorem resetGivesResetValues : Obligations.ResetGivesResetValues := by
  refine ⟨reset_holdsResetValues, fun s rest hin => ?_⟩
  refine ⟨_, step_rstN hin, assertReset_holdsResetValues _, rfl, rfl, fun rest' hrest => ?_⟩
  exact ⟨_, step_rstN hrest, reset_holdsResetValues.setOutside .., rfl, rfl⟩

/-- While `rst_n = 0` the sequencer does not move and no transaction is performed. -/
theorem step_in_reset {s t : State} (hrst : s.rstN = false) (h : step s = .next t) :
    (∃ level l answers, t = { s with rstN := level, inputs := l, entropy := answers }) ∨
      ∃ l, t = State.assertReset { s with inputs := l } := by
  have hseq {u v : State} (hu : u.rstN = false) (huv : sequencer u = .next v) : v = u := by
    rcases sequencer_cases huv with ⟨-, hv⟩ | ⟨hu', -⟩
    · exact hv
    · exact nomatch hu.symm.trans hu'
  have hready (l : List Input) : ¬ State.hReady { s with inputs := l } = true :=
    Bool.eq_false_iff.1 hrst
  rcases step_cases h with ⟨-, h⟩ | ⟨i, rest, -, ⟨-, h⟩ | ⟨r, -, rfl⟩ | ⟨r, v, -, rfl⟩ | ⟨c, -, rfl⟩ |
    ⟨-, rfl⟩ | ⟨-, rfl⟩⟩
  · exact .inl ⟨_, _, _, hseq hrst h⟩
  · exact .inl ⟨_, _, _, hseq (u := { s with inputs := rest }) hrst h⟩
  · exact .inl ⟨_, _, _, if_neg (hready rest)⟩
  · exact .inl ⟨_, _, _, if_neg (hready rest)⟩
  · exact .inl ⟨_, _, _, rfl⟩
  · exact .inl ⟨_, _, _, rfl⟩
  · exact .inr ⟨rest, rfl⟩

theorem State.Inv.holdsResetValues {s : State} (hinv : s.Inv) (hrst : s.rstN = false) :
    s.HoldsResetValues := by
  rw [hinv.inReset hrst]
  exact assertReset_holdsResetValues s

/-- Settles O4: the invariant says that the state is the reset state, `step_in_reset` that a step leaves it so. -/
theorem nothingHappensInReset : Obligations.NothingHappensInReset := by
  intro s hinv hrst
  have hvalues := hinv.holdsResetValues hrst
  obtain ⟨t, ht⟩ := step_next s
  refine ⟨hrst, hvalues, t, ht, ?_⟩
  rcases step_in_reset hrst ht with ⟨level, l, answers, rfl⟩ | ⟨l, rfl⟩
  · exact ⟨hvalues.setOutside level s.hRdata l answers, rfl⟩
  · exact ⟨assertReset_holdsResetValues _, (congrArg State.hRdata (hinv.inReset hrst)).symm⟩

end Sys2Proof.Machine
end

section
/-! Proofs/RoundTrip: `decode` and `encode` are inverse to each other on well-formed commands, and the words that
the spec works out (spec/30_encoding.md R91 to R105). -/

namespace Sys2Proof

/-- Settles O5: `decode_encode` where R97 does not refuse the destinations. -/
theorem decodeInvertsEncode : Obligations.DecodeInvertsEncode := by
  intro i hi
  rw [decode_encode, if_pos hi]

/-- Settles O6: `encode_of_decode_ok`. -/
theorem decodedWordIsItsEncoding : Obligations.DecodedWordIsItsEncoding :=
  fun _ _ => encode_of_decode_ok

theorem decode_of_encode_eq {c : CmdWord} {i : Instr} (h : encode i = c) (hi : i.wellFormed = true) :
    decode c = .ok i := by
  rw [← h, decode_encode, if_pos hi]

/-- The word of `PADD` (R92, R93): opcode 0x10, three register selects, the two other fields 0. -/
theorem encode_padd (pd pa pb : PtReg) :
    encode (.padd pd pa pb) =
      BitVec.ofNat 32 (0x10000000 + pd.val * 2 ^ 21 + pa.val * 2 ^ 18 + pb.val * 2 ^ 15) := by
  simp [encode, packWord]

/-- Settles O8: a word that decodes is checked against the encoding of its command; the three that are rejected
are computed. -/
theorem workedWordsDecode : Obligations.WorkedWordsDecode :=
  ⟨decode_of_encode_eq (by decide) rfl, decode_of_encode_eq (by decide) rfl,
    decode_of_encode_eq (by decide) rfl, decode_of_encode_eq (by decide) rfl,
    decode_of_encode_eq (by decide) rfl, decode_of_encode_eq (by decide) rfl,
    by decide, by decide, by decide, fun pd pa => decode_of_encode_eq (encode_padd pd pa pa) rfl⟩

end Sys2Proof
end

section
/-! Proofs/HostRegisters: the registers by their numbers. Each register has one number (`HostReg.number`), so a
write to a data register is read back and seen under no other number (spec/10_state.md R25 to R30, R39;
spec/20_memory.md R63, R64; spec/60_exceptions.md R188). -/

namespace Sys2Proof.Machine

/-! ### `CMD`, `STATUS` and `CTRL` -/

/-- R25: an idle machine without a pending fault accepts a word. -/
theorem hostWrite_cmd_accepted {s : State} (hidle : s.status.busy = false)
    (herr : s.status.err = false) (v : Nat) : hostWrite 0x00 v s = s.accept (BitVec.ofNat 32 v) := by
  have hmap : regMap 0x00 = some .cmd := rfl
  simp [hostWrite, hmap, HostReg.readOnly, hidle, State.issue, herr]

/-- Settles O13: `hostWrite_cmd_accepted`, and the two reasons for a drop. -/
theorem cmdWriteIsAcceptedOrDropped : Obligations.CmdWriteIsAcceptedOrDropped := by
  refine fun s v => ⟨fun hidle herr => hostWrite_cmd_accepted hidle herr v, ?_, rfl⟩
  rintro (hbusy | herr)
  · exact hostWrite_busy_drops hbusy (by decide) (by decide) v
  · exact hostWrite_cmd_of_err herr v

theorem hostWrite_status (v : Nat) (s : State) : hostWrite 0x01 v s = s.acknowledge v := rfl

/-- R26: the six fields in bits 0 to 5. -/
theorem Status.value_testBit (st : Status) :
    st.value.testBit 0 = st.busy ∧ st.value.testBit 1 = st.done ∧ st.value.testBit 2 = st.err ∧
      st.value.testBit 3 = st.herr ∧ st.value.testBit 4 = st.v ∧ st.value.testBit 5 = st.rnge := by
  obtain ⟨busy, done, err, herr, v, rnge⟩ := st
  revert busy done err herr v rnge
  decide

/-- Settles O14: `STATUS` reads as `Status.value`, whose bits are `Status.value_testBit`. -/
theorem statusReadsAndClears : Obligations.StatusReadsAndClears := by
  intro s v
  obtain ⟨h0, h1, h2, h3, h4, h5⟩ := s.status.value_testBit
  exact ⟨s.status.value_lt, h0, h1, h2, h3, h4, h5, rfl⟩

/-- R30: the two bits of `CTRL` are stored, the others read as 0. -/
theorem Ctrl.value_ofValue (v : Nat) : (Ctrl.ofValue v).value = v % 4 := by
  simp only [Ctrl.value, Ctrl.ofValue, Nat.toNat_testBit]
  omega

/-- Settles O15: `Ctrl.value_ofValue`. -/
theorem ctrlIsAlwaysWritable : Obligations.CtrlIsAlwaysWritable :=
  fun _ v => ⟨rfl, Ctrl.value_ofValue v⟩

/-- Settles O19: after the acknowledge `ERR` is 0, so `hostWrite_cmd_accepted` applies. -/
theorem acknowledgeReopensTheMachine : Obligations.AcknowledgeReopensTheMachine := by
  intro s v w hidle hv
  have herr : (s.acknowledge v).status.err = false := by simp [hv]
  rw [hostWrite_status, hostWrite_cmd_accepted (s := s.acknowledge v) hidle herr]
  exact ⟨herr, rfl, rfl, rfl, rfl, rfl, rfl, fun _ => rfl, fun _ => rfl⟩

/-! ### The numbers (R39) -/

/-- Four numbers for each of the eight point registers. -/
theorem partNumber_lt {base : Nat} (i : PtReg) (h : base ≤ 0x23) :
    base + 4 * i.val < Config.registerNumbers := by
  have hi : i.val < 8 := i.isLt
  show base + 4 * i.val < 64
  omega

/-- The number of a register, the inverse of `regMap` (`regMap_number`, `number_of_regMap`). -/
def HostReg.number : HostReg → RegNum
  | .cmd => 0x00
  | .status => 0x01
  | .errcode => 0x02
  | .errcmd => 0x03
  | .ctrl => 0x04
  | .retryLimit => 0x05
  | .retryCount => 0x06
  | .curveP => 0x08
  | .curveA => 0x09
  | .curveB => 0x0A
  | .curveN => 0x0B
  | .gX => 0x0C
  | .gY => 0x0D
  | .gInf => 0x0E
  | .sc i => ⟨0x10 + i.val, Nat.add_lt_add_left i.isLt 0x10 |>.trans (by decide)⟩
  | .ptX i => ⟨0x20 + 4 * i.val, partNumber_lt i (by decide)⟩
  | .ptY i => ⟨0x21 + 4 * i.val, partNumber_lt i (by decide)⟩
  | .ptInf i => ⟨0x22 + 4 * i.val, partNumber_lt i (by decide)⟩

theorem regMap_number (reg : HostReg) : regMap reg.number = some reg := by
  cases reg with
  | sc i | ptX i | ptY i | ptInf i => revert i; decide
  | _ => rfl

theorem number_of_regMap {r : RegNum} {reg : HostReg} (h : regMap r = some reg) : reg.number = r := by
  have hall : ∀ r : RegNum, ∀ reg ∈ regMap r, reg.number = r := by decide
  exact hall r reg h

theorem hostRead_number (reg : HostReg) (s : State) : hostRead reg.number s = s.readReg reg := by
  rw [hostRead, regMap_number]

/-- The registers that hold a command's data, which only an idle host writes (R39, R66). -/
def HostReg.isData : HostReg → Bool
  | .cmd | .status | .errcode | .errcmd | .ctrl | .retryCount => false
  | _ => true

theorem exists_number_of_dataNumber {r : RegNum} (h : dataNumber r) :
    ∃ reg : HostReg, reg.isData = true ∧ reg.number = r := by
  have hany : (regMap r).any HostReg.isData = true := by
    unfold dataNumber at h
    revert r
    decide
  obtain ⟨reg, hreg, hdata⟩ := Option.any_eq_true _ _ |>.1 hany
  exact ⟨reg, hdata, number_of_regMap hreg⟩

/-- R63 (f): the write of an idle host to a data register. -/
theorem hostWrite_number {s : State} (hidle : s.status.busy = false) {reg : HostReg}
    (hdata : reg.isData = true) (v : Nat) : hostWrite reg.number v s = s.writeReg reg v := by
  rw [hostWrite, regMap_number]
  cases reg with
  | cmd | status | errcode | errcmd | ctrl | retryCount => cases hdata
  | _ => simp [HostReg.readOnly, hidle]

/-! ### What a data register holds after a write (R64) -/

theorem storedValue_of_word {r : RegNum} (h5 : r.val ≠ 0x05)
    (hinf : ¬ (r.val = 0x0E ∨ (0x20 ≤ r.val ∧ r.val % 4 = 2))) (v : Nat) : storedValue r v = v := by
  rw [storedValue, if_neg h5, if_neg hinf]

theorem storedValue_ptInf (i : PtReg) (v : Nat) :
    storedValue (HostReg.ptInf i).number v = v % 2 := by
  have hval : (HostReg.ptInf i).number.val = 0x22 + 4 * i.val := rfl
  rw [storedValue, if_neg (by omega), if_pos (by omega)]

theorem toNat_testBit_zero (v : Nat) : (v.testBit 0).toNat = v % 2 := by
  rw [Nat.toNat_testBit, pow_zero, Nat.div_one]

theorem readReg_writeReg_same {reg : HostReg} (hdata : reg.isData = true) (v : Nat) (s : State) :
    (s.writeReg reg v).readReg reg = storedValue reg.number v := by
  cases reg with
  | cmd | status | errcode | errcmd | ctrl | retryCount => cases hdata
  | retryLimit => exact BitVec.toNat_ofNat ..
  | curveP | curveA | curveB | curveN | gX | gY => rfl
  | gInf => exact toNat_testBit_zero v
  | sc i =>
    have hval : (HostReg.sc i).number.val = 0x10 + i.val := rfl
    have hi : i.val < 8 := i.isLt
    rw [storedValue_of_word (by omega) (by omega)]
    exact s.scalar_setScalar_same i v
  | ptX i =>
    have hval : (HostReg.ptX i).number.val = 0x20 + 4 * i.val := rfl
    rw [storedValue_of_word (by omega) (by omega)]
    simp [State.readReg, State.writeReg, State.pointReg_setPointReg]
  | ptY i =>
    have hval : (HostReg.ptY i).number.val = 0x21 + 4 * i.val := rfl
    rw [storedValue_of_word (by omega) (by omega)]
    simp [State.readReg, State.writeReg, State.pointReg_setPointReg]
  | ptInf i =>
    rw [storedValue_ptInf, ← toNat_testBit_zero]
    simp [State.readReg, State.writeReg, State.pointReg_setPointReg]

/-- A part of a point register that a write of another part leaves. -/
theorem pointReg_setPointReg_part {β : Type} (part : PointReg → β) (s : State) (i j : PtReg)
    {r : PointReg} (h : i = j → part r = part (s.pointReg i)) :
    part ((s.setPointReg i r).pointReg j) = part (s.pointReg j) := by
  rw [State.pointReg_setPointReg]
  split
  · next hij => rw [h hij, hij]
  · rfl

/-- No two registers share storage. -/
theorem readReg_writeReg_of_ne {reg reg' : HostReg} (hne : reg' ≠ reg) (v : Nat) (s : State) :
    (s.writeReg reg v).readReg reg' = s.readReg reg' := by
  cases reg with
  | cmd | status | errcode | errcmd | ctrl | retryCount => rfl
  | retryLimit | curveP | curveA | curveB | curveN | gX | gY | gInf =>
    cases reg' <;> simp_all [State.readReg, State.writeReg, State.scalar, State.pointReg]
  | sc i =>
    cases reg' with
    | sc j =>
      refine (s.scalar_setScalar i j v).trans (if_neg ?_)
      rintro rfl
      exact hne rfl
    | _ => rfl
  | ptX i =>
    cases reg' with
    | ptX j => exact pointReg_setPointReg_part PointReg.x s i j fun hij => absurd (hij ▸ rfl) hne
    | ptY j => exact pointReg_setPointReg_part PointReg.y s i j fun _ => rfl
    | ptInf j => exact pointReg_setPointReg_part (·.inf.toNat) s i j fun _ => rfl
    | _ => rfl
  | ptY i =>
    cases reg' with
    | ptX j => exact pointReg_setPointReg_part PointReg.x s i j fun _ => rfl
    | ptY j => exact pointReg_setPointReg_part PointReg.y s i j fun hij => absurd (hij ▸ rfl) hne
    | ptInf j => exact pointReg_setPointReg_part (·.inf.toNat) s i j fun _ => rfl
    | _ => rfl
  | ptInf i =>
    cases reg' with
    | ptX j => exact pointReg_setPointReg_part PointReg.x s i j fun _ => rfl
    | ptY j => exact pointReg_setPointReg_part PointReg.y s i j fun _ => rfl
    | ptInf j => exact pointReg_setPointReg_part (·.inf.toNat) s i j fun hij => absurd (hij ▸ rfl) hne
    | _ => rfl

theorem hostRead_writeReg_of_ne {reg : HostReg} {r : RegNum} (hne : r ≠ reg.number) (v : Nat)
    (s : State) : hostRead r (s.writeReg reg v) = hostRead r s := by
  unfold hostRead
  cases hr : regMap r with
  | none => rfl
  | some reg' =>
    refine readReg_writeReg_of_ne ?_ v s
    rintro rfl
    exact hne (number_of_regMap hr).symm

/-- Settles O18: the number names one data register (`exists_number_of_dataNumber`), which holds the stored value
(`readReg_writeReg_same`) and is read under no other number (`hostRead_writeReg_of_ne`). -/
theorem writtenRegisterReadsBack : Obligations.WrittenRegisterReadsBack := by
  intro s r v hidle hr _
  have hclause (reg : HostReg) (hdata : reg.isData = true) (h : r = reg.number) :
      hostRead r s = s.readReg reg ∧ hostWrite r v s = s.writeReg reg v :=
    h ▸ ⟨hostRead_number reg s, hostWrite_number hidle hdata v⟩
  refine ⟨?_, ?_, hclause .retryLimit rfl, hclause .curveP rfl, hclause .curveA rfl,
    hclause .curveB rfl, hclause .curveN rfl, hclause .gX rfl, hclause .gY rfl, hclause .gInf rfl,
    fun i h => hclause (.sc i) rfl (Fin.ext h),
    fun i => ⟨fun h => hclause (.ptX i) rfl (Fin.ext h), fun h => hclause (.ptY i) rfl (Fin.ext h),
      fun h => hclause (.ptInf i) rfl (Fin.ext h)⟩⟩
  · obtain ⟨reg, hdata, rfl⟩ := exists_number_of_dataNumber hr
    rw [hostWrite_number hidle hdata, hostRead_number, readReg_writeReg_same hdata]
  · obtain ⟨reg, hdata, rfl⟩ := exists_number_of_dataNumber hr
    intro r' hne
    rw [hostWrite_number hidle hdata, hostRead_writeReg_of_ne hne]

end Sys2Proof.Machine
end

section
/-! Proofs/PointAdd: `PADD` by the cases of `Add`, which fault exactly where the slope's denominator has no
inverse; `Add` is commutative on all operands, and on valid curves it is the group law
(spec/41_point_add.md R121 to R128). -/

namespace Sys2Proof.Machine

/-! ### The command by the value of `Add` -/

section command
variable {s : State} {pd pa pb : PtReg}

theorem exec_padd_of_add_ok {R : Point}
    (h : add (s.point pa) (s.point pb) s.curveA s.curveP = .ok R) :
    exec (.padd pd pa pb) s = .next (s.setPoint pd R).commit := by
  rw [exec, execPadd, h, finish_ok]

theorem exec_padd_of_add_error {c : Cause}
    (h : add (s.point pa) (s.point pb) s.curveA s.curveP = .error c) :
    exec (.padd pd pa pb) s = .next (s.takeFault c) := by
  rw [exec, execPadd, h, finish_error]

end command

/-! ### The cases of `Add` on two affine points (R121 to R123) -/

section cases
variable {x y xP yP xQ yQ a p : Nat}

theorem add_same_x (h : yP ≠ yQ ∨ yP = 0) :
    add (.affine x yP) (.affine x yQ) a p = .ok .identity := by
  rw [add_affine]
  split
  · next heq => rw [if_pos (h.resolve_left fun hne => hne heq.2)]
  · rw [if_pos rfl]

theorem add_double (hy : y ≠ 0) :
    add (.affine x y) (.affine x y) a p =
      doublingSlope x y a p >>= fun l => chordPoint l x y x p := by
  rw [add_affine, if_pos ⟨rfl, rfl⟩, if_neg hy]

theorem add_chord (hx : xP ≠ xQ) :
    add (.affine xP yP) (.affine xQ yQ) a p =
      chordSlope xP yP xQ yQ p >>= fun l => chordPoint l xP yP xQ p := by
  rw [add_affine, if_neg fun h => hx h.1, if_neg hx]

theorem add_double_error (hy : y ≠ 0) (h : p = 0 ∨ Nat.gcd (2 * y) p ≠ 1) :
    add (.affine x y) (.affine x y) a p = .error .arith := by
  have hinv : inv (2 * y) p = .error .arith := by
    exact_mod_cast (inv_natCast_arith_iff (k := 2 * y)).2 h
  rw [add_double hy]
  exact bind_error_iff.2 (.inl (bind_error_iff.2 (.inl hinv)))

theorem add_chord_error (hx : xP ≠ xQ) (h : p = 0 ∨ Int.gcd ((xQ : Int) - xP) p ≠ 1) :
    add (.affine xP yP) (.affine xQ yQ) a p = .error .arith := by
  rw [add_chord hx]
  exact bind_error_iff.2 (.inl (bind_error_iff.2 (.inl (inv_error_iff.2 ⟨rfl, h⟩))))

theorem chordPoint_exists (hp : p ≠ 0) (l xP yP xQ : Nat) :
    ∃ xR yR : Nat, (xR : Int) = ((l : Int) * l - xP - xQ) % p ∧
      (yR : Int) = ((l : Int) * ((xP : Int) - xR) - yP) % p ∧
      chordPoint l xP yP xQ p = .ok (.affine xR yR) :=
  have hx := emod_toNat_cast hp ((l : Int) * l - xP - xQ)
  have hy := emod_toNat_cast hp _
  ⟨_, _, hx, hy, chordPoint_ok_iff.2 ⟨hp, _, _, rfl, hx, hy⟩⟩

theorem add_double_of_inv (hy : y ≠ 0) (hp : p ≠ 0) {i : Nat} (hi : inv (2 * y) p = .ok i) :
    ∃ l xR yR : Nat, (l : Int) = (3 * x * x + a) * i % p ∧
      (xR : Int) = ((l : Int) * l - x - x) % p ∧
      (yR : Int) = ((l : Int) * ((x : Int) - xR) - y) % p ∧
      add (.affine x y) (.affine x y) a p = .ok (.affine xR yR) := by
  have hl := emod_toNat_cast hp ((3 * x * x + a) * i)
  obtain ⟨xR, yR, hxR, hyR, hR⟩ := chordPoint_exists hp _ x y x
  rw [add_double hy]
  exact ⟨_, xR, yR, hl, hxR, hyR, bind_ok_iff.2 ⟨_, doublingSlope_ok_iff.2 ⟨hp, i, hi, hl⟩, hR⟩⟩

theorem add_chord_of_inv (hx : xP ≠ xQ) (hp : p ≠ 0) {i : Nat}
    (hi : inv ((xQ : Int) - xP) p = .ok i) :
    ∃ l xR yR : Nat, (l : Int) = ((yQ : Int) - yP) * i % p ∧
      (xR : Int) = ((l : Int) * l - xP - xQ) % p ∧
      (yR : Int) = ((l : Int) * ((xP : Int) - xR) - yP) % p ∧
      add (.affine xP yP) (.affine xQ yQ) a p = .ok (.affine xR yR) := by
  have hl := emod_toNat_cast hp (((yQ : Int) - yP) * i)
  obtain ⟨xR, yR, hxR, hyR, hR⟩ := chordPoint_exists hp _ xP yP xQ
  rw [add_chord hx]
  exact ⟨_, xR, yR, hl, hxR, hyR, bind_ok_iff.2 ⟨_, chordSlope_ok_iff.2 ⟨hp, i, hi, hl⟩, hR⟩⟩

end cases

/-- The contract of `Inv` as an equation of residues (R112). -/
theorem inv_emod {k : Int} {m v : Nat} (h : inv k m = .ok v) : k * v % m = 1 % m := by
  obtain ⟨-, -, hd⟩ := inv_ok_iff.1 h
  exact Int.emod_eq_emod_iff_emod_sub_eq_zero.2 (Int.emod_eq_zero_of_dvd hd)

/-! ### The statements about `PADD` -/

/-- Settles O21: the identity as operand, and `add_same_x`. -/
theorem paddWithoutArithmetic : Obligations.PaddWithoutArithmetic := by
  intro s pd pa pb
  refine ⟨fun ha => ?_, fun hb => ?_, fun x yP yQ ha hb hy => ?_⟩
  · exact exec_padd_of_add_ok (by rw [ha, add_identity_left])
  · exact exec_padd_of_add_ok (by rw [hb, add_identity_right])
  · exact exec_padd_of_add_ok (by rw [ha, hb, add_same_x hy])

/-- Settles O22: `add_double_of_inv` with the inverse of `2·y`. -/
theorem paddDoubles : Obligations.PaddDoubles := by
  intro s pd pa pb x y ha hb hy hp hg
  obtain ⟨i, hinv, hi, hmul, -⟩ := inv_natCast_existsUnique hp hg
  obtain ⟨l, xR, yR, hl, hxR, hyR, hR⟩ :=
    add_double_of_inv (x := x) (a := s.curveA) hy hp (i := i) (by exact_mod_cast hinv)
  exact ⟨i, l, xR, yR, hi, hmul, hl, hxR, hyR, exec_padd_of_add_ok (by rw [ha, hb, hR])⟩

/-- Settles O23: `add_chord_of_inv` with the inverse of the difference of the `x` coordinates. -/
theorem paddAddsDistinctPoints : Obligations.PaddAddsDistinctPoints := by
  intro s pd pa pb xP yP xQ yQ ha hb hx hp hg
  obtain ⟨i, hinv⟩ := inv_total hp hg
  obtain ⟨l, xR, yR, hl, hxR, hyR, hR⟩ :=
    add_chord_of_inv (yP := yP) (yQ := yQ) (a := s.curveA) hx hp hinv
  exact ⟨i, l, xR, yR, inv_lt hinv, inv_emod hinv, hl, hxR, hyR,
    exec_padd_of_add_ok (by rw [ha, hb, hR])⟩

/-- Settles O24: `add_double_error` and `add_chord_error`. -/
theorem paddFaultsWithoutInverse : Obligations.PaddFaultsWithoutInverse := by
  intro s pd pa pb xP yP xQ yQ ha hb
  refine ⟨fun hx hy hy0 h => ?_, fun hx h => ?_⟩
  · subst hx hy
    exact exec_padd_of_add_error (by rw [ha, hb, add_double_error hy0 h])
  · exact exec_padd_of_add_error (by rw [ha, hb, add_chord_error hx h])

/-! ### `Add` is commutative (R124): the chord's slope is the same from both ends -/

theorem reduce_congr_of_dvd {v w : Int} {m : Nat} (h : (m : Int) ∣ v - w) : reduce v m = reduce w m :=
  reduce_congr (Int.emod_eq_emod_iff_emod_sub_eq_zero.2 (Int.emod_eq_zero_of_dvd h))

section chord
variable {xP yP xQ yQ p l : Nat}

/-- The slope times the difference of the `x` coordinates is the difference of the `y` coordinates. -/
theorem chordSlope_mul (h : chordSlope xP yP xQ yQ p = .ok l) :
    (p : Int) ∣ l * ((xQ : Int) - xP) - ((yQ : Int) - yP) := by
  obtain ⟨-, i, hi, hl⟩ := chordSlope_ok_iff.1 h
  obtain ⟨-, -, hd⟩ := inv_ok_iff.1 hi
  have hmod : (p : Int) ∣ ((yQ : Int) - yP) * i - l := by
    rw [hl]
    exact Int.dvd_self_sub_emod
  have hsplit : (l : Int) * ((xQ : Int) - xP) - ((yQ : Int) - yP) =
      ((yQ : Int) - yP) * (((xQ : Int) - xP) * i - 1) -
        ((xQ : Int) - xP) * (((yQ : Int) - yP) * i - l) := by ring
  rw [hsplit]
  exact dvd_sub (hd.mul_left _) (hmod.mul_left _)

theorem chordSlope_comm (hp : p ≠ 0) (hg : Int.gcd ((xQ : Int) - xP) p = 1) :
    chordSlope xP yP xQ yQ p = chordSlope xQ yQ xP yP p := by
  have hg' : Int.gcd ((xP : Int) - xQ) p = 1 := by rwa [← neg_sub, Int.neg_gcd]
  obtain ⟨i, hi⟩ := inv_total hp hg
  obtain ⟨j, hj⟩ := inv_total hp hg'
  obtain ⟨-, -, hdi⟩ := inv_ok_iff.1 hi
  obtain ⟨-, -, hdj⟩ := inv_ok_iff.1 hj
  have hopp : (p : Int) ∣ (i : Int) + j := by
    have hsplit : (i : Int) + j =
        -(j * (((xQ : Int) - xP) * i - 1)) - i * (((xP : Int) - xQ) * j - 1) := by ring
    rw [hsplit]
    exact dvd_sub (hdi.mul_left _).neg_right (hdj.mul_left _)
  have hslope : reduce (((yQ : Int) - yP) * i) p = reduce (((yP : Int) - yQ) * j) p := by
    refine reduce_congr_of_dvd ?_
    have hsplit : ((yQ : Int) - yP) * i - ((yP : Int) - yQ) * j = ((yQ : Int) - yP) * (i + j) := by
      ring
    rw [hsplit]
    exact hopp.mul_left _
  calc chordSlope xP yP xQ yQ p
    _ = reduce (((yQ : Int) - yP) * i) p := by rw [chordSlope, hi]; rfl
    _ = reduce (((yP : Int) - yQ) * j) p := hslope
    _ = chordSlope xQ yQ xP yP p := by rw [chordSlope, hj]; rfl

theorem chordPoint_comm (h : (p : Int) ∣ l * ((xQ : Int) - xP) - ((yQ : Int) - yP)) :
    chordPoint l xP yP xQ p = chordPoint l xQ yQ xP p := by
  have hy (xR : Nat) : reduce ((l : Int) * ((xP : Int) - xR) - yP) p =
      reduce ((l : Int) * ((xQ : Int) - xR) - yQ) p := by
    refine reduce_congr_of_dvd ?_
    have hsplit : ((l : Int) * ((xP : Int) - xR) - yP) - ((l : Int) * ((xQ : Int) - xR) - yQ) =
        -(l * ((xQ : Int) - xP) - ((yQ : Int) - yP)) := by ring
    rw [hsplit]
    exact h.neg_right
  simp only [chordPoint, sub_right_comm ((l : Int) * l) xP xQ, hy]

end chord

/-- R124 (a): both orders fault, or the slope and the point of the chord are the same. -/
theorem add_comm_affine_of_ne {xP yP xQ yQ : Nat} (a p : Nat) (hx : xP ≠ xQ) :
    add (.affine xP yP) (.affine xQ yQ) a p = add (.affine xQ yQ) (.affine xP yP) a p := by
  by_cases h : p = 0 ∨ Int.gcd ((xQ : Int) - xP) p ≠ 1
  · have h' : p = 0 ∨ Int.gcd ((xP : Int) - xQ) p ≠ 1 := by rwa [← neg_sub, Int.neg_gcd]
    rw [add_chord_error hx h, add_chord_error hx.symm h']
  · obtain ⟨hp, hg⟩ := not_or.1 h
    have hslope := chordSlope_comm (yP := yP) (yQ := yQ) hp (not_not.1 hg)
    rw [add_chord hx, add_chord hx.symm, ← hslope]
    cases hl : chordSlope xP yP xQ yQ p with
    | error c => rfl
    | ok l => exact chordPoint_comm (chordSlope_mul hl)

theorem add_comm_points (P Q : Point) (a p : Nat) : add P Q a p = add Q P a p := by
  cases P with
  | identity => rw [add_identity_left, add_identity_right]
  | affine xP yP =>
    cases Q with
    | identity => rw [add_identity_left, add_identity_right]
    | affine xQ yQ =>
      by_cases hx : xP = xQ
      · subst hx
        by_cases hy : yP = yQ
        · rw [hy]
        · rw [add_same_x (.inl hy), add_same_x (.inl (Ne.symm hy))]
      · exact add_comm_affine_of_ne a p hx

/-- Settles O26: `add_comm_points`, and what a result is by `add_result`. -/
theorem addIsCommutative : Obligations.AddIsCommutative := fun P Q a p =>
  ⟨add_comm_points P Q a p, add_identity_left Q a p, add_identity_right P a p, fun _ => add_result⟩

/-! ### Valid curves (R128): the laws of the group, carried over by `Represents` -/

section valid
variable {a b p : Nat} (hv : ValidCurve a b p)
include hv

theorem ValidCurve.add_onCurve {P Q : Point} (hP : P.OnCurve a b p) (hQ : Q.OnCurve a b p) :
    ∃ R, add P Q a p = .ok R ∧ R.OnCurve a b p := by
  have : Fact p.Prime := ⟨hv.prime⟩
  obtain ⟨g, hg⟩ := hv.exists_represents hP
  obtain ⟨h, hh⟩ := hv.exists_represents hQ
  obtain ⟨R, hR, hr⟩ := hv.add_represents hg hh
  exact ⟨R, hR, hr.onCurve⟩

theorem ValidCurve.neg_onCurve {P : Point} (hP : P.OnCurve a b p) :
    ∃ N, neg P p = .ok N ∧ N.OnCurve a b p := by
  have : Fact p.Prime := ⟨hv.prime⟩
  obtain ⟨g, hg⟩ := hv.exists_represents hP
  obtain ⟨N, hN, hr⟩ := hv.neg_represents hg
  exact ⟨N, hN, hr.onCurve⟩

theorem ValidCurve.add_eq_identity_iff [Fact p.Prime] {P M : Point} {g h : (curveOf a b p).Point}
    (hg : Represents a b p P g) (hh : Represents a b p M h) :
    add P M a p = .ok .identity ↔ g + h = 0 := by
  obtain ⟨R, hR, hr⟩ := hv.add_represents hg hh
  rw [hR]
  constructor
  · intro hid
    rw [Except.ok.inj hid] at hr
    exact hr
  · intro h0
    rw [h0] at hr
    exact congrArg Except.ok (hr.point_unique (rfl : Represents a b p .identity 0))

theorem ValidCurve.exists_unique_inverse {P : Point} (hP : P.OnCurve a b p) :
    ∃ N, neg P p = .ok N ∧ N.OnCurve a b p ∧ add P N a p = .ok .identity ∧
      ∀ M : Point, M.OnCurve a b p → add P M a p = .ok .identity → M = N := by
  have : Fact p.Prime := ⟨hv.prime⟩
  obtain ⟨g, hg⟩ := hv.exists_represents hP
  obtain ⟨N, hN, hr⟩ := hv.neg_represents hg
  refine ⟨N, hN, hr.onCurve, (hv.add_eq_identity_iff hg hr).2 (add_neg_cancel g), ?_⟩
  intro M hM hPM
  obtain ⟨m, hm⟩ := hv.exists_represents hM
  have hneg : m = -g := eq_neg_of_add_eq_zero_right ((hv.add_eq_identity_iff hg hm).1 hPM)
  exact (hneg ▸ hm).point_unique hr

end valid

/-- Settles O27: the group's laws for `add` and `neg` (`ValidCurve.exists_unique_inverse`). -/
theorem validPointsHaveInverses : Obligations.ValidPointsHaveInverses := by
  refine ⟨fun s pd pa pb hv ha hb => ⟨?_, ?_⟩, fun a b p P hv hP => ?_⟩
  · obtain ⟨R, hR, hcurve⟩ := hv.add_onCurve ha hb
    exact ⟨R, hcurve, exec_padd_of_add_ok hR⟩
  · obtain ⟨N, hN, hcurve⟩ := hv.neg_onCurve ha
    exact ⟨N, hcurve, exec_pneg_of_neg_ok hN⟩
  · exact ⟨add_identity_right P a p, add_identity_left P a p, hv.exists_unique_inverse hP⟩

end Sys2Proof.Machine
end

section
/-! Proofs/ScalarMul: `PMUL` and the loop of `Mul`, which runs from the least significant bit and doubles once
more than it needs; on valid curves it is the multiple in the group (spec/42_scalar_mult.md R136 to R140). -/

namespace Sys2Proof.Machine

/-! ### The command by the value of `Mul` -/

section command
variable {s : State} {pd pa : PtReg} {sk : ScReg}

theorem exec_pmul_of_mul_ok {R : Point}
    (h : mul (s.scalar sk) (s.point pa) s.curveA s.curveP = .ok R) :
    exec (.pmul pd sk pa) s = .next (s.setPoint pd R).commit := by
  rw [exec, execPmul, h, finish_ok]

theorem exec_pmul_of_mul_error {c : Cause}
    (h : mul (s.scalar sk) (s.point pa) s.curveA s.curveP = .error c) :
    exec (.pmul pd sk pa) s = .next (s.takeFault .arith) := by
  rw [exec, execPmul, h, mul_error h, finish_error]

end command

/-- The word of `PMUL` (R92, R93): opcode 0x20, three register selects, the two other fields 0. -/
theorem encode_pmul (pd : PtReg) (sk : ScReg) (pa : PtReg) :
    encode (.pmul pd sk pa) =
      BitVec.ofNat 32 (0x20000000 + pd.val * 2 ^ 21 + sk.val * 2 ^ 18 + pa.val * 2 ^ 15) := by
  simp [encode, packWord]

/-- Settles O28: `mul_zero` and `mul_identity`. -/
theorem pmulOfZeroOrIdentity : Obligations.PmulOfZeroOrIdentity := by
  rintro s pd sk pa (hk | hP)
  · exact exec_pmul_of_mul_ok (by rw [hk, mul_zero])
  · exact exec_pmul_of_mul_ok (by rw [hP, mul_identity])

/-- Settles O29: the command by the value of `Mul`, which is a point for reduced operands (`mul_total`). -/
theorem pmulWritesTheProduct : Obligations.PmulWritesTheProduct := by
  intro s pd sk pa
  refine ⟨encode_pmul pd sk pa, fun _ => exec_pmul_of_mul_ok, fun _ => exec_pmul_of_mul_error, ?_⟩
  intro hp h2 hP
  obtain ⟨R, hR, hred⟩ := mul_total s.curveA hp h2 (s.scalar sk) hP
  exact ⟨R, hR, hred, exec_pmul_of_mul_ok hR⟩

/-! ### The loop -/

section loop
variable {a p : Nat}

theorem mulLoop_identity (fuel K : Nat) :
    mulLoop a p fuel .identity .identity K = .ok .identity := by
  induction fuel generalizing K with
  | zero => rfl
  | succ fuel ih =>
    by_cases hK : K = 0
    · rw [hK, mulLoop_zero_scalar]
    · rw [mulLoop_succ a p fuel _ _ hK]
      split
      · exact ih (K / 2)
      · exact ih (K / 2)

/-- The early return of R136 for the identity is what the loop would answer. -/
theorem mul_eq_mulLoop {k : Nat} (hk : k ≠ 0) (P : Point) :
    mul k P a p = mulLoop a p (Nat.log2 k + 1) .identity P k := by
  cases P with
  | identity => rw [mul_identity, mulLoop_identity]
  | affine x y => exact mul_affine hk x y a p

/-- Fuel beyond the bit length of the scalar changes nothing (log entry 12). -/
theorem mulLoop_fuel {fuel fuel' K : Nat} (R A : Point) (h : K < 2 ^ fuel) (h' : K < 2 ^ fuel') :
    mulLoop a p fuel R A K = mulLoop a p fuel' R A K := by
  induction fuel generalizing fuel' R A K with
  | zero =>
    have hK : K = 0 := by omega
    rw [hK, mulLoop_zero_scalar, mulLoop_zero_scalar]
  | succ fuel ih =>
    cases fuel' with
    | zero =>
      have hK : K = 0 := by omega
      rw [hK, mulLoop_zero_scalar, mulLoop_zero_scalar]
    | succ fuel' =>
      by_cases hK : K = 0
      · rw [hK, mulLoop_zero_scalar, mulLoop_zero_scalar]
      · have hrec (R' A' : Point) : mulLoop a p fuel R' A' (K / 2) = mulLoop a p fuel' R' A' (K / 2) :=
          ih R' A' (by omega) (by omega)
        simp only [mulLoop_succ a p _ _ _ hK, hrec]

theorem mulLoop_log2 {fuel K : Nat} (R A : Point) (h : Nat.log2 K + 1 ≤ fuel) :
    mulLoop a p fuel R A K = mulLoop a p (Nat.log2 K + 1) R A K :=
  mulLoop_fuel R A (lt_of_lt_of_le Nat.lt_log2_self (Nat.pow_le_pow_right (by omega) h))
    Nat.lt_log2_self

end loop

/-- Settles O32: `mulLoop_log2` for the fuel, `mulLoop_succ` for the iteration. -/
theorem mulLoopRunsBitLengthIterations : Obligations.MulLoopRunsBitLengthIterations :=
  fun a p _ R A _ hK hfuel =>
    ⟨mulLoop_log2 R A hfuel, (mulLoop_log2 R A hfuel).trans (mulLoop_succ a p _ R A hK)⟩

/-- R137 (d): the only iteration of `Mul(1, P)` doubles `P` and answers `P`. -/
theorem mul_one_point (P : Point) (a p : Nat) :
    mul 1 P a p = add P P a p >>= fun _ => .ok P := by
  rw [mul_eq_mulLoop one_ne_zero]
  rfl

/-- Settles O30: `mul_one_point`; the unused doubling decides. -/
theorem pmulByOneMakesTheUnusedDoubling : Obligations.PmulByOneMakesTheUnusedDoubling := by
  intro s pd sk pa hk
  have hmul := mul_one_point (s.point pa) s.curveA s.curveP
  rw [← hk] at hmul
  refine ⟨fun ⟨D, hD⟩ => ?_, fun hnone => ?_⟩
  · exact exec_pmul_of_mul_ok (hmul.trans (bind_ok_iff.2 ⟨D, hD, rfl⟩))
  · cases hD : add (s.point pa) (s.point pa) s.curveA s.curveP with
    | ok D => exact absurd ⟨D, hD⟩ hnone
    | error c => exact exec_pmul_of_mul_error (hmul.trans (bind_error_iff.2 (.inl hD)))

/-- Settles O31: the first iteration accumulates nothing, doubles, and leaves the loop of `Mul(k, ·)`. -/
theorem mulHalvesTheScalar : Obligations.MulHalvesTheScalar := by
  intro k P a p hk
  have hlog : Nat.log2 (2 * k) = Nat.log2 k + 1 := Nat.log2_two_mul hk
  have heven : ¬ 2 * k % 2 = 1 := by omega
  have hhalf : 2 * k / 2 = k := by omega
  calc mul (2 * k) P a p
    _ = mulLoop a p (Nat.log2 k + 1 + 1) .identity P (2 * k) := by
      rw [mul_eq_mulLoop (by omega), hlog]
    _ = add P P a p >>= fun D => mulLoop a p (Nat.log2 k + 1) .identity D k := by
      rw [mulLoop_succ _ _ _ _ _ (by omega), if_neg heven, hhalf]
      rfl
    _ = (add P P a p).bind fun D => mul k D a p := by
      simp only [← mul_eq_mulLoop hk]
      rfl

/-! ### Valid curves (R140) -/

/-- Settles O33: `Mul` is the multiple in the group (`ValidCurve.mul_represents`), and a group element stands for
one point. -/
theorem mulIsHomomorphic : Obligations.MulIsHomomorphic := by
  intro a b p P j k hv hP
  have : Fact p.Prime := ⟨hv.prime⟩
  obtain ⟨g, hg⟩ := hv.exists_represents hP
  obtain ⟨J, hJ, hJg⟩ := hv.mul_represents j hg
  obtain ⟨K, hK, hKg⟩ := hv.mul_represents k hg
  obtain ⟨R, hR, hRg⟩ := hv.mul_represents (j + k) hg
  obtain ⟨S, hS, hSg⟩ := hv.add_represents hJg hKg
  obtain ⟨C, hC, hCg⟩ := hv.mul_represents j hKg
  obtain ⟨D, hD, hDg⟩ := hv.mul_represents k hJg
  have hsum : S = R := hSg.point_unique (add_nsmul g j k ▸ hRg)
  have hcomm : D = C := hDg.point_unique (nsmul_left_comm g j k ▸ hCg)
  exact ⟨mul_zero P a p, mul_identity k a p, J, K, R, hJ, hK, hR, hsum ▸ hS, C, hC, hcomm ▸ hD⟩

end Sys2Proof.Machine
end

section
/-! Proofs/ElGamalRoundTrip: on a valid curve the decryption of a ciphertext is `(Pm + k(bG)) - b(kG)`, which is
the message point (spec/43_ec_elgamal.md R152). -/

namespace Sys2Proof.Machine

theorem ValidCurve.decrypt_encrypt {a b p key k : Nat} {G Pb Pm : Point} (hv : ValidCurve a b p)
    (hG : G.OnCurve a b p) (hPm : Pm.OnCurve a b p) (hkey : mul key G a p = .ok Pb) :
    ∃ C, encrypt Pm k a p G Pb = .ok C ∧ decrypt C.1 C.2 key a p = .ok Pm := by
  have : Fact p.Prime := ⟨hv.prime⟩
  obtain ⟨g, hg⟩ := hv.exists_represents hG
  obtain ⟨m, hm⟩ := hv.exists_represents hPm
  obtain ⟨Pb', hPb', hb⟩ := hv.mul_represents key hg
  obtain rfl : Pb' = Pb := Except.ok.inj (hPb'.symm.trans hkey)
  obtain ⟨S, hS, hSg⟩ := hv.mul_represents k hb
  obtain ⟨C1, hC1, hC1g⟩ := hv.mul_represents k hg
  obtain ⟨C2, hC2, hC2g⟩ := hv.add_represents hm hSg
  obtain ⟨T, hT, hTg⟩ := hv.mul_represents key hC1g
  obtain ⟨N, hN, hNg⟩ := hv.neg_represents hTg
  obtain ⟨M, hM, hMg⟩ := hv.add_represents hC2g hNg
  have hcancel : m + k • key • g + -(key • k • g) = m := by
    rw [nsmul_left_comm g k key, add_neg_cancel_right]
  obtain rfl : M = Pm := (hcancel ▸ hMg).point_unique hm
  exact ⟨(C1, C2), encrypt_ok_iff.2 ⟨S, hS, hC1, hC2⟩, decrypt_ok_iff.2 ⟨T, N, hT, hN, hM⟩⟩

/-- Settles O38: `ValidCurve.decrypt_encrypt` on the registers that `EGENC` leaves. -/
theorem decryptionInvertsEncryption : Obligations.DecryptionInvertsEncryption := by
  intro s pc1 pc2 pm pb pd sk sb hne hvalid hm hkey
  obtain ⟨C, henc, hdec⟩ :=
    hvalid.curve.decrypt_encrypt (k := s.scalar sk) hvalid.onCurve hm hkey
  refine ⟨_, exec_egenc_of_encrypt_ok hne henc, rfl, exec_egdec_of_decrypt_ok ?_⟩
  simpa [State.point_setPoint, hne.symm] using hdec

end Sys2Proof.Machine
end

section
/-! Proofs/Draws: `DSAKG` and `DSASGN` by one turn of their draw loop: the cap, the request, the wait, and the
attempt that an answer makes (spec/44_ecdsa.md R163, R165, R166; spec/60_exceptions.md R183). -/

namespace Sys2Proof.Machine

/-! ### The two commands as draw loops -/

theorem exec_dsakg_eq_drawLoop (sd : ScReg) (pq : PtReg) (s : State) :
    exec (.dsakg sd pq) s =
      drawLoop (keyAttempt s.curveN s.basePoint s.curveA s.curveP) (writeKeyPair sd pq) s := by
  rw [exec, execDsakg]

theorem exec_dsasgn_eq_drawLoop {sr ss : ScReg} (hne : sr ≠ ss) (sz sd : ScReg) (s : State) :
    exec (.dsasgn sr ss sz sd) s =
      drawLoop (signAttempt (s.scalar sz) (s.scalar sd) s.curveN s.basePoint s.curveA s.curveP)
        (writeSignature sr ss) s := by
  rw [exec, execDsasgn, if_neg hne]

/-- A cap that is reached fits `RETRY_COUNT`, so it is not saturated (R183). -/
theorem publishAttempts_at_limit {s : State} (h : s.attempts = s.retryLimit.toNat) :
    s.publishAttempts = { s with retryCount := s.retryLimit } := by
  have hmin : min s.retryLimit.toNat 0xFFFF = s.retryLimit.toNat := by
    have := s.retryLimit.isLt
    omega
  rw [State.publishAttempts, h, hmin, BitVec.ofNat_toNat, BitVec.setWidth_eq]

/-- Settles O40: `drawLoop_retry` for both commands. -/
theorem retryFaultsAtTheLimit : Obligations.RetryFaultsAtTheLimit := by
  intro s hn hr hl ha
  refine ⟨fun sd pq => ?_, fun sr ss sz sd hne => ?_⟩
  · rw [exec_dsakg_eq_drawLoop, drawLoop_retry _ _ hn hr hl ha, publishAttempts_at_limit ha]
  · rw [exec_dsasgn_eq_drawLoop hne, drawLoop_retry _ _ hn hr hl ha, publishAttempts_at_limit ha]

/-- Settles O41: `drawLoop_waits_requesting` and `drawLoop_waits_requested` for both commands. -/
theorem unansweredDrawWaits : Obligations.UnansweredDrawWaits := by
  intro s hn he
  refine ⟨fun hr hcap => ⟨fun sd pq => ?_, fun sr ss sz sd hne => ?_⟩,
    fun bound hr => ⟨fun sd pq => ?_, fun sr ss sz sd hne => ?_⟩⟩
  · exact drawLoop_waits_requesting _ _ hn hr (.inr hcap) he
  · rw [exec_dsasgn_eq_drawLoop hne]
    exact drawLoop_waits_requesting _ _ hn hr (.inr hcap) he
  · exact drawLoop_waits_requested _ _ hn hr he
  · rw [exec_dsasgn_eq_drawLoop hne]
    exact drawLoop_waits_requested _ _ hn hr he

/-! ### What an attempt answers (R163, R165) -/

theorem inDrawRange_iff {c n : Nat} : inDrawRange c n = true ↔ 1 ≤ c ∧ c ≤ n - 1 := by
  simp only [inDrawRange, Bool.and_eq_true, decide_eq_true_eq]

theorem reduce_natCast {m : Nat} (hm : m ≠ 0) (v : Nat) : reduce v m = .ok (v % m) :=
  reduce_ok_iff.2 ⟨hm, Int.natCast_mod v m⟩

section outOfRange
variable {c n : Nat} (h : c < 1 ∨ n - 1 < c)
include h

theorem keyAttempt_outOfRange (G : Point) (a p : Nat) : keyAttempt n G a p c = .ok none :=
  if_neg fun hc => by have := inDrawRange_iff.1 hc; omega

theorem signAttempt_outOfRange (z d : Nat) (G : Point) (a p : Nat) :
    signAttempt z d n G a p c = .ok none :=
  if_neg fun hc => by have := inDrawRange_iff.1 hc; omega

end outOfRange

section inRange
variable {c n a p : Nat} {G : Point} (h1 : 1 ≤ c) (hc : c ≤ n - 1)
include h1 hc

theorem keyAttempt_of_mul_error {e : Cause} (h : mul c G a p = .error e) :
    keyAttempt n G a p c = .error .arith := by
  rw [keyAttempt, if_pos (inDrawRange_iff.2 ⟨h1, hc⟩), h, mul_error h]
  rfl

variable (z d : Nat)

theorem signAttempt_of_mul_error {e : Cause} (h : mul c G a p = .error e) :
    signAttempt z d n G a p c = .error .arith := by
  rw [signAttempt, if_pos (inDrawRange_iff.2 ⟨h1, hc⟩), h, mul_error h]
  rfl

theorem signAttempt_of_mul_identity (h : mul c G a p = .ok .identity) :
    signAttempt z d n G a p c = .ok none := by
  rw [signAttempt, if_pos (inDrawRange_iff.2 ⟨h1, hc⟩), h]
  rfl

variable {xK yK : Nat} (hK : mul c G a p = .ok (.affine xK yK))
include hK

theorem signAttempt_of_r_zero (hr : xK % n = 0) : signAttempt z d n G a p c = .ok none := by
  rw [signAttempt, if_pos (inDrawRange_iff.2 ⟨h1, hc⟩), hK]
  simp only [bind, Except.bind]
  rw [reduce_natCast (by omega)]
  simp only [hr, if_true]

theorem signAttempt_of_inv_error (hr : xK % n ≠ 0) (hg : Nat.gcd c n ≠ 1) :
    signAttempt z d n G a p c = .error .arith := by
  rw [signAttempt, if_pos (inDrawRange_iff.2 ⟨h1, hc⟩), hK]
  simp only [bind, Except.bind]
  rw [reduce_natCast (by omega), inv_natCast_arith_iff.2 (.inr hg)]
  simp only [hr, if_false]

theorem signAttempt_of_inv_ok {i : Nat} (hr : xK % n ≠ 0) (hi : inv c n = .ok i) :
    signAttempt z d n G a p c =
      if i * (z + xK % n * d) % n = 0 then .ok none
      else .ok (some (xK % n, i * (z + xK % n * d) % n)) := by
  have hs : reduce ((i : Int) * (z + (xK % n : Nat) * d)) n = .ok (i * (z + xK % n * d) % n) := by
    exact_mod_cast reduce_natCast (m := n) (by omega) (i * (z + xK % n * d))
  rw [signAttempt, if_pos (inDrawRange_iff.2 ⟨h1, hc⟩), hK]
  simp only [bind, Except.bind]
  rw [reduce_natCast (by omega), hi]
  simp only [hr, if_false, hs]

end inRange

/-- The inverse of an in-range nonce by its congruence, as `CURVE_N` is at least 2 (R112). -/
theorem inv_of_mul_mod_eq_one {c n i : Nat} (hn : 2 ≤ n) (hi : i < n) (h : c * i % n = 1) :
    inv c n = .ok i := by
  have hcop : Nat.gcd c n = 1 := by
    have hmod : c * i ≡ 1 [MOD n] := by rw [Nat.ModEq, h, Nat.mod_eq_of_lt (by omega)]
    exact Nat.Coprime.coprime_mul_right ((Nat.ModEq.gcd_eq hmod).trans (Nat.gcd_one_left n))
  exact inv_natCast_ok_iff.2 ⟨hcop, hi, by rw [h, Nat.mod_eq_of_lt (by omega)]⟩

/-! ### The attempt that ends a command, or is rejected -/

section attempt
variable {s : State} {c : Nat} {rest : List Nat} (hn : 2 ≤ s.curveN) (hd : s.mayDraw)
  (he : s.entropy = c :: rest)
include hn hd he

theorem drawLoop_rejects {α : Type} {attempt : Nat → Result (Option α)} (write : α → State → State)
    (h : attempt c = .ok none) : drawLoop attempt write s = .next (s.drawn rest) := by
  rw [drawLoop_attempt attempt write hn hd he, h]

theorem drawLoop_commits {α : Type} {attempt : Nat → Result (Option α)} (write : α → State → State)
    {v : α} (h : attempt c = .ok (some v)) :
    drawLoop attempt write s = .next (write v (s.drawn rest).publishAttempts).commit := by
  rw [drawLoop_attempt attempt write hn hd he, h]

theorem drawLoop_faults {α : Type} {attempt : Nat → Result (Option α)} (write : α → State → State)
    {e : Cause} (h : attempt c = .error e) :
    drawLoop attempt write s = .next ((s.drawn rest).publishAttempts.takeFault e) := by
  rw [drawLoop_attempt attempt write hn hd he, h]

end attempt

/-- Settles O42: neither attempt accepts the answer, so `drawLoop_rejects` for both commands. -/
theorem outOfRangeAnswerIsRejected : Obligations.OutOfRangeAnswerIsRejected := by
  intro s c rest hn hd he hc
  refine ⟨fun sd pq => ?_, fun sr ss sz sd hne => ?_⟩
  · exact drawLoop_rejects hn hd he _ (keyAttempt_outOfRange hc ..)
  · rw [exec_dsasgn_eq_drawLoop hne]
    exact drawLoop_rejects hn hd he _ (signAttempt_outOfRange hc ..)

/-- The word of `DSAKG` (R92, R93): opcode 0x40, two register selects, the three other fields 0. -/
theorem encode_dsakg (sd : ScReg) (pq : PtReg) :
    encode (.dsakg sd pq) = BitVec.ofNat 32 (0x40000000 + sd.val * 2 ^ 21 + pq.val * 2 ^ 18) := by
  simp [encode, packWord]

/-- Settles O43: the attempt ends as the multiplication does, which gives a point for reduced `G` (`mul_total`). -/
theorem dsakgWritesTheKeyPair : Obligations.DsakgWritesTheKeyPair := by
  intro s sd pq
  refine ⟨encode_dsakg sd pq, fun c rest hn hd he h1 hc => ?_⟩
  have hok (Q : Point) (hQ : mul c s.basePoint s.curveA s.curveP = .ok Q) :
      exec (.dsakg sd pq) s =
        .next (writeKeyPair sd pq (c, Q) (s.drawn rest).publishAttempts).commit :=
    drawLoop_commits hn hd he _ (keyAttempt_some_iff.2 ⟨h1, hc, rfl, hQ⟩)
  refine ⟨hok, fun e hE => ?_, fun hp h2 hG => ?_⟩
  · exact drawLoop_faults hn hd he _ (keyAttempt_of_mul_error h1 hc hE)
  · obtain ⟨Q, hQ, -⟩ := mul_total s.curveA hp h2 c hG
    exact ⟨Q, hQ, hok Q hQ⟩

/-- Settles O44: `signAttempt_of_inv_ok` with `s` not 0. -/
theorem dsasgnWritesTheSignature : Obligations.DsasgnWritesTheSignature := by
  intro s sr ss sz sd c xK yK i rest hne hn hd he h1 hc hK hi hci hr hs
  have hattempt := signAttempt_of_inv_ok h1 hc (s.scalar sz) (s.scalar sd) hK hr
    (inv_of_mul_mod_eq_one hn hi hci)
  rw [if_neg hs] at hattempt
  rw [exec_dsasgn_eq_drawLoop hne]
  exact drawLoop_commits hn hd he _ hattempt

/-- Settles O45: one value of the attempt for each fault and each rejection. -/
theorem signAttemptRejectsOrFaults : Obligations.SignAttemptRejectsOrFaults := by
  intro s sr ss sz sd c rest hne hn hd he h1 hc
  rw [exec_dsasgn_eq_drawLoop hne]
  refine ⟨fun e hE => ?_, fun hid => ?_, fun xK yK hK hr => ?_, fun xK yK i hK hr hi hci hs => ?_,
    fun xK yK hK hr hg => ?_⟩
  · exact drawLoop_faults hn hd he _ (signAttempt_of_mul_error h1 hc _ _ hE)
  · exact drawLoop_rejects hn hd he _ (signAttempt_of_mul_identity h1 hc _ _ hid)
  · exact drawLoop_rejects hn hd he _ (signAttempt_of_r_zero h1 hc _ _ hK hr)
  · refine drawLoop_rejects hn hd he _ ?_
    rw [signAttempt_of_inv_ok h1 hc _ _ hK hr (inv_of_mul_mod_eq_one hn hi hci), if_pos hs]
  · exact drawLoop_faults hn hd he _ (signAttempt_of_inv_error h1 hc _ _ hK hr hg)

/-! ### A signature that was committed -/

/-- A `DSASGN` that ended without a fault made an attempt that was accepted. -/
theorem exec_dsasgn_committed {s t : State} {sr ss sz sd : ScReg}
    (h : exec (.dsasgn sr ss sz sd) s = .next t) (hbusy : s.status.busy = true)
    (hidle : t.status.busy = false) (herr : t.status.err = false) :
    sr ≠ ss ∧ ∃ c rest sig,
      signAttempt (s.scalar sz) (s.scalar sd) s.curveN s.basePoint s.curveA s.curveP c =
        .ok (some sig) ∧
      t = (writeSignature sr ss sig (s.drawn rest).publishAttempts).commit := by
  by_cases hne : sr = ss
  · rw [exec_of_illFormed (by simp [Instr.wellFormed, hne])] at h
    cases h
    cases herr
  rw [exec_dsasgn_eq_drawLoop hne] at h
  rcases drawLoop_cases h with ⟨-, rfl⟩ | ⟨-, -, -, -, rfl⟩ | ⟨-, -, -, ⟨-, rfl⟩ | ⟨-, rfl⟩⟩ |
    ⟨-, -, c, rest, -, ⟨-, rfl⟩ | ⟨sig, hsig, rfl⟩ | ⟨e, -, rfl⟩⟩
  · cases herr
  · cases herr
  · exact nomatch hbusy.symm.trans hidle
  · exact nomatch hbusy.symm.trans hidle
  · exact nomatch hbusy.symm.trans hidle
  · exact ⟨hne, c, rest, sig, hsig, rfl⟩
  · cases herr

section signature
variable {sr ss : ScReg} (sig : Nat × Nat) (s : State)

theorem scalar_writeSignature_r (hne : sr ≠ ss) : (writeSignature sr ss sig s).scalar sr = sig.1 := by
  rw [writeSignature, State.scalar_setScalar, if_neg hne.symm, State.scalar_setScalar_same]

theorem scalar_writeSignature_s : (writeSignature sr ss sig s).scalar ss = sig.2 := by
  rw [writeSignature, State.scalar_setScalar_same]

theorem scalar_writeSignature_of_ne {r : ScReg} (hr : r ≠ sr) (hs : r ≠ ss) :
    (writeSignature sr ss sig s).scalar r = s.scalar r := by
  rw [writeSignature, State.scalar_setScalar, if_neg hs.symm, State.scalar_setScalar, if_neg hr.symm]

end signature

/-- Settles O46: `signAttempt_some` says so of an accepted attempt. -/
theorem signatureHalvesAreInRange : Obligations.SignatureHalvesAreInRange := by
  intro s t sr ss sz sd h hbusy _ hidle herr
  obtain ⟨hne, c, rest, sig, hsig, rfl⟩ := exec_dsasgn_committed h hbusy hidle herr
  obtain ⟨-, -, hr0, hrn, hs0, hsn, -⟩ := signAttempt_some hsig
  rw [State.scalar_commit, State.scalar_commit, scalar_writeSignature_r _ _ hne,
    scalar_writeSignature_s]
  omega

end Sys2Proof.Machine
end

section
/-! Proofs/Verification: `DSAVFY` by the value of `Verify`, that signing and verification see the hash modulo `n`
only, and that a signature verifies because `u1 + u2·d` is the nonce modulo the order of `G`
(spec/44_ecdsa.md R161, R168 to R171). -/

namespace Sys2Proof.Machine

/-! ### What `Verify` answers (R168) -/

theorem inSignatureRange_iff {v n : Nat} : inSignatureRange v n = true ↔ 1 ≤ v ∧ v < n := by
  simp only [inSignatureRange, Bool.and_eq_true, decide_eq_true_eq, Nat.succ_le_iff]

theorem verify_outOfRange {r s n : Nat} (h : r < 1 ∨ n ≤ r ∨ s < 1 ∨ n ≤ s) (z : Nat) (Q G : Point)
    (a p : Nat) : verify r s z Q n G a p = .ok .failRange := by
  refine if_neg fun hin => ?_
  obtain ⟨hr, hs⟩ := Bool.and_eq_true_iff.1 hin
  have hr := inSignatureRange_iff.1 hr
  have hs := inSignatureRange_iff.1 hs
  omega

/-- The verdict on the combined point `X`, the last step of `Verify` (`verify_of_points`). -/
def pointVerdict (n r : Nat) : Point → Verdict
  | .identity => .fail
  | .affine x _ => if x % n = r then .pass else .fail

section inRange
variable {r s n : Nat} (hr1 : 1 ≤ r) (hrn : r < n) (hs1 : 1 ≤ s) (hsn : s < n) {a p : Nat}
include hr1 hrn hs1 hsn

theorem inSignatureRange_both : (inSignatureRange r n && inSignatureRange s n) = true :=
  Bool.and_eq_true_iff.2 ⟨inSignatureRange_iff.2 ⟨hr1, hrn⟩, inSignatureRange_iff.2 ⟨hs1, hsn⟩⟩

theorem verify_of_inv_error (hg : Nat.gcd s n ≠ 1) (z : Nat) (Q G : Point) :
    verify r s z Q n G a p = .error .arith := by
  rw [verify, if_pos (inSignatureRange_both hr1 hrn hs1 hsn), inv_natCast_arith_iff.2 (.inr hg)]
  rfl

theorem verify_of_points {w z : Nat} {Q G X1 X2 X : Point} (hw : inv s n = .ok w)
    (h1 : mul (z * w % n) G a p = .ok X1) (h2 : mul (r * w % n) Q a p = .ok X2)
    (hX : add X1 X2 a p = .ok X) : verify r s z Q n G a p = .ok (pointVerdict n r X) := by
  have hreduce (v : Nat) : reduce ((v : Int) * w) n = .ok (v * w % n) := by
    exact_mod_cast reduce_natCast (m := n) (by omega) (v * w)
  rw [verify, if_pos (inSignatureRange_both hr1 hrn hs1 hsn), hw]
  simp only [bind, Except.bind, hreduce, h1, h2, hX]
  cases X with
  | identity => rfl
  | affine x y =>
    simp only [reduce_natCast (m := n) (by omega), pointVerdict]
    split <;> rfl

end inRange

/-! ### The command by the value of `Verify` (R169) -/

theorem exec_dsavfy_of_verify_error {sr ss sz : ScReg} {pq : PtReg} {s : State} {c : Cause}
    (h : verify (s.scalar sr) (s.scalar ss) (s.scalar sz) (s.point pq) s.curveN s.basePoint
      s.curveA s.curveP = .error c) :
    exec (.dsavfy sr ss sz pq) s = .next ((writeVerdict .fail s).takeFault .arith) := by
  rw [exec, execDsavfy, h, verify_error h]

/-- Settles O47: `verify_outOfRange`. -/
theorem dsavfyRangeFailure : Obligations.DsavfyRangeFailure :=
  fun _ _ _ _ _ h => exec_dsavfy_of_verify_ok (verify_outOfRange h ..)

/-- Settles O49: a fault of `Verify` is `Arith`; without an inverse of `s` there is one. -/
theorem dsavfyFaultFailsClosed : Obligations.DsavfyFaultFailsClosed := by
  rintro s sr ss sz pq (⟨hr1, hrn, hs1, hsn, hg⟩ | ⟨c, hc⟩)
  · exact exec_dsavfy_of_verify_error (verify_of_inv_error hr1 hrn hs1 hsn hg ..)
  · exact exec_dsavfy_of_verify_error hc

theorem writeVerdict_pointVerdict_commit (n r x y : Nat) (s : State) :
    (writeVerdict (pointVerdict n r (.affine x y)) s).commit =
      { s with
        status :=
          { s.status with v := decide (x % n = r), rnge := false, done := true, busy := false }
        attempts := 0
        rndReq := none } := by
  by_cases h : x % n = r
  · simp only [pointVerdict, h, if_true, decide_true]
    rfl
  · simp only [pointVerdict, h, if_false, decide_false]
    rfl

/-- Settles O48: `verify_of_points`; over an odd prime the points exist (`mul_total`, `add_total`). -/
theorem dsavfyWritesTheVerdict : Obligations.DsavfyWritesTheVerdict := by
  intro s sr ss sz pq hr1 hrn hs1 hsn
  have hends {w : Nat} {X1 X2 X : Point} (hw : inv (s.scalar ss) s.curveN = .ok w)
      (h1 : mul (s.scalar sz * w % s.curveN) s.basePoint s.curveA s.curveP = .ok X1)
      (h2 : mul (s.scalar sr * w % s.curveN) (s.point pq) s.curveA s.curveP = .ok X2)
      (hX : add X1 X2 s.curveA s.curveP = .ok X) :
      (X = .identity → exec (.dsavfy sr ss sz pq) s = .next (writeVerdict .fail s).commit) ∧
      (∀ x y, X = .affine x y → exec (.dsavfy sr ss sz pq) s =
        .next (writeVerdict (pointVerdict s.curveN (s.scalar sr) (.affine x y)) s).commit) := by
    have hexec := exec_dsavfy_of_verify_ok (verify_of_points hr1 hrn hs1 hsn hw h1 h2 hX)
    exact ⟨fun hid => by rw [hexec, hid]; rfl, fun x y haff => by rw [hexec, haff]⟩
  simp only [writeVerdict_pointVerdict_commit] at hends
  refine ⟨fun w X1 X2 X hwn hw h1 h2 hX => hends ?_ h1 h2 hX, fun hg hp hp2 hG hQ => ?_⟩
  · exact inv_of_mul_mod_eq_one (by omega) hwn hw
  · obtain ⟨w, hinv, hwn, hw, -⟩ := inv_natCast_existsUnique (by omega) hg
    obtain ⟨X1, h1, hX1⟩ := mul_total s.curveA hp hp2 (s.scalar sz * w % s.curveN) hG
    obtain ⟨X2, h2, hX2⟩ := mul_total s.curveA hp hp2 (s.scalar sr * w % s.curveN) hQ
    obtain ⟨X, hX, -⟩ := add_total s.curveA hp hp2 hX1 hX2
    rw [Nat.mod_eq_of_lt (show 1 < s.curveN by omega)] at hw
    exact ⟨w, X1, X2, X, hwn, hw, h1, h2, hX, hends hinv h1 h2 hX⟩

/-! ### The hash matters modulo `n` (R161) -/

/-- Settles O50: each function reduces a value that is linear in the hash. -/
theorem onlyTheHashResidueMatters : Obligations.OnlyTheHashResidueMatters := by
  intro z z' n hz _
  have hmod : (z : Int) ≡ z' [ZMOD n] := Int.natCast_modEq_iff.2 hz
  have hsign (i r d : Nat) : reduce ((i : Int) * (z + r * d)) n = reduce ((i : Int) * (z' + r * d)) n :=
    reduce_congr ((hmod.add_right _).mul_left _)
  have hverify (w : Nat) : reduce ((z : Int) * w) n = reduce ((z' : Int) * w) n :=
    reduce_congr (hmod.mul_right _)
  exact ⟨fun d G a p c => by simp only [signAttempt, hsign],
    fun r s Q G a p => by simp only [verify, hverify]⟩

/-! ### A signature verifies (R171) -/

/-- The ECDSA equation: `u1 + u2·d` is the nonce, as `s·c = z + r·d` and `w` inverts `s` modulo `n`. -/
theorem combined_scalar_modEq {n c i w z r d s : Nat} (hc : c * i ≡ 1 [MOD n])
    (hs : s ≡ i * (z + r * d) [MOD n]) (hw : s * w ≡ 1 [MOD n]) :
    z * w % n + r * w % n * d ≡ c [MOD n] :=
  calc z * w % n + r * w % n * d
    _ ≡ z * w + r * w * d [MOD n] :=
      (Nat.mod_modEq ..).add ((Nat.mod_modEq ..).mul_right d)
    _ = 1 * (w * (z + r * d)) := by ring
    _ ≡ c * i * (w * (z + r * d)) [MOD n] := (hc.symm).mul_right _
    _ = c * w * (i * (z + r * d)) := by ring
    _ ≡ c * w * s [MOD n] := (hs.symm).mul_left _
    _ = c * (s * w) := by ring
    _ ≡ c * 1 [MOD n] := hw.mul_left c
    _ = c := mul_one c

theorem nsmul_eq_of_modEq {A : Type} [AddMonoid A] {g : A} {n j k : Nat} (hg : n • g = 0)
    (h : j ≡ k [MOD n]) : j • g = k • g := by
  rw [nsmul_eq_mod_nsmul j hg, nsmul_eq_mod_nsmul k hg, h]

/-- On a valid group `Verify` finds the point of the nonce again. -/
theorem ValidGroup.combined_point {a b p n : Nat} {G Q K : Point} (hv : ValidGroup a b p n G)
    {c d u1 u2 : Nat} (hQ : mul d G a p = .ok Q) (hK : mul c G a p = .ok K)
    (hu : u1 + u2 * d ≡ c [MOD n]) :
    ∃ X1 X2, mul u1 G a p = .ok X1 ∧ mul u2 Q a p = .ok X2 ∧ add X1 X2 a p = .ok K := by
  have : Fact p.Prime := ⟨hv.curve.prime⟩
  have hmul {k : Nat} {P R : Point} {g : (curveOf a b p).Point} (hg : Represents a b p P g)
      (hR : mul k P a p = .ok R) : Represents a b p R (k • g) := by
    obtain ⟨R', hR', hr⟩ := hv.curve.mul_represents k hg
    rwa [← Except.ok.inj (hR'.symm.trans hR)]
  obtain ⟨g, hg⟩ := hv.curve.exists_represents hv.onCurve
  have horder : n • g = 0 := hmul hg hv.order
  obtain ⟨X1, h1, h1g⟩ := hv.curve.mul_represents u1 hg
  obtain ⟨X2, h2, h2g⟩ := hv.curve.mul_represents u2 (hmul hg hQ)
  obtain ⟨X, hX, hXg⟩ := hv.curve.add_represents h1g h2g
  have hsum : u1 • g + u2 • d • g = c • g := by
    rw [← mul_nsmul', ← add_nsmul, nsmul_eq_of_modEq horder hu]
  obtain rfl : X = K := (hsum ▸ hXg).point_unique (hmul hg hK)
  exact ⟨X1, X2, h1, h2, hX⟩

theorem ValidGroup.verify_signAttempt {a b p n : Nat} {G Q : Point} (hv : ValidGroup a b p n G)
    {z d c : Nat} {sig : Nat × Nat} (hQ : mul d G a p = .ok Q)
    (hsig : signAttempt z d n G a p c = .ok (some sig)) :
    verify sig.1 sig.2 z Q n G a p = .ok .pass := by
  obtain ⟨-, -, hr0, hrn, hs0, hsn, x, y, i, hK, hr, hi, hs⟩ := signAttempt_some hsig
  have hn : 1 < n := hv.primeOrder.one_lt
  have hcop : Nat.gcd sig.2 n = 1 :=
    (Nat.coprime_of_lt_prime (by omega) hsn hv.primeOrder).symm
  obtain ⟨w, hw, -, hwmod, -⟩ := inv_natCast_existsUnique (by omega) hcop
  obtain ⟨-, -, himod⟩ := inv_natCast_ok_iff.1 hi
  have hsmod : sig.2 ≡ i * (z + sig.1 * d) [MOD n] := by
    rw [← Int.natCast_modEq_iff, Int.ModEq, hs]
    push_cast
    exact Int.emod_emod ..
  obtain ⟨X1, X2, h1, h2, hX⟩ := hv.combined_point hQ hK (combined_scalar_modEq himod hsmod hwmod)
  rw [verify_of_points (by omega) hrn (by omega) hsn hw h1 h2 hX]
  simp only [pointVerdict, ← hr, if_true]

/-- Settles O51: `ValidGroup.verify_signAttempt` on the registers that `DSASGN` leaves. -/
theorem signatureVerifies : Obligations.SignatureVerifies := by
  intro s t sr ss sz sd pq hv hQ hzr hzs h hbusy _ hidle herr
  obtain ⟨hne, c, rest, sig, hsig, rfl⟩ := exec_dsasgn_committed h hbusy hidle herr
  refine ⟨_, exec_dsavfy_of_verify_ok (v := .pass) ?_, rfl, rfl, herr, rfl⟩
  have hpass := hv.verify_signAttempt hQ hsig
  rw [State.scalar_commit, State.scalar_commit, State.scalar_commit,
    scalar_writeSignature_r _ _ hne, scalar_writeSignature_s, scalar_writeSignature_of_ne _ _ hzr hzs]
  exact hpass

end Sys2Proof.Machine
end

section
/-! Proofs/CommandFrame: a command ends in a fault, commits with its destinations written, or goes on drawing; in
each case the rest of the state is as it was (spec/30_encoding.md section 3; spec/60_exceptions.md R185, R190,
R193; spec/10_state.md R27). -/

namespace Sys2Proof.Machine

/-- `u` is `s` with no destination of `i` written yet: a draw may have been requested or answered if `i` draws,
and the verdict written if `i` verifies. -/
def Prepared (i : Instr) (s u : State) : Prop :=
  ∃ v rnge count attempts req answers,
    u = { s with
      status := s.status.verdict v rnge
      retryCount := count
      attempts := attempts
      rndReq := req
      entropy := answers } ∧
    (i.draws = false → count = s.retryCount ∧ answers = s.entropy) ∧
    (answers = s.entropy ∨ ∃ c, s.entropy = c :: answers) ∧
    (i.verifies = false → v = s.status.v ∧ rnge = s.status.rnge)

section prepared
variable {i : Instr} {s : State}

theorem Prepared.refl : Prepared i s s :=
  ⟨s.status.v, s.status.rnge, s.retryCount, s.attempts, s.rndReq, s.entropy, rfl,
    fun _ => ⟨rfl, rfl⟩, .inl rfl, fun _ => ⟨rfl, rfl⟩⟩

theorem Prepared.writeVerdict (hi : i.verifies = true) (v : Verdict) :
    Prepared i s (writeVerdict v s) :=
  ⟨v == .pass, v == .failRange, s.retryCount, s.attempts, s.rndReq, s.entropy, rfl,
    fun _ => ⟨rfl, rfl⟩, .inl rfl, fun h => absurd hi (Bool.eq_false_iff.1 h)⟩

theorem Prepared.drawing (hi : i.draws = true) (count : Half) (attempts : Nat) (req : Option Nat)
    {answers : List Nat} (he : answers = s.entropy ∨ ∃ c, s.entropy = c :: answers) :
    Prepared i s
      { s with retryCount := count, attempts := attempts, rndReq := req, entropy := answers } :=
  ⟨s.status.v, s.status.rnge, count, attempts, req, answers, rfl,
    fun h => absurd hi (Bool.eq_false_iff.1 h), he, fun _ => ⟨rfl, rfl⟩⟩

end prepared

theorem verifies_of_illFormed {i : Instr} (h : i.wellFormed = false) : i.verifies = false := by
  cases i with
  | dsavfy => cases h
  | _ => rfl

/-- The three ways a command's step ends. -/
theorem exec_ends {i : Instr} {s t : State} (h : exec i s = .next t) :
    (∃ u c, Prepared i s u ∧ (i.verifies = true → u.status.v = false ∧ u.status.rnge = false) ∧
      t = u.takeFault c) ∨
    (∃ u w, Prepared i s u ∧ Writes i u w ∧ t = w.commit) ∨
    (i.draws = true ∧ i.verifies = false ∧ Prepared i s t ∧ t.status = s.status ∧
      t.errcode = s.errcode) := by
  rcases exec_cases h with ⟨hi, rfl⟩ | ⟨-, hi, ⟨w, hw, rfl⟩ | rfl⟩ | ⟨-, hi, ⟨v, rfl⟩ | rfl⟩ |
    ⟨hd, hi, ⟨-, rfl⟩ | ⟨-, -, -, -, rfl⟩ | ⟨-, -, -, ⟨-, rfl⟩ | ⟨-, rfl⟩⟩ |
      ⟨-, -, c, rest, he, rfl | ⟨w, hw, rfl⟩ | rfl⟩⟩
  · exact .inl ⟨s, _, .refl, fun hv => absurd hv (Bool.eq_false_iff.1 (verifies_of_illFormed hi)), rfl⟩
  · exact .inr (.inl ⟨s, w, .refl, hw, rfl⟩)
  · exact .inl ⟨s, _, .refl, fun hv => absurd hv (Bool.eq_false_iff.1 hi), rfl⟩
  · exact .inr (.inl ⟨_, _, .writeVerdict hi v, .refl .., rfl⟩)
  · exact .inl ⟨_, _, .writeVerdict hi .fail, fun _ => ⟨rfl, rfl⟩, rfl⟩
  · exact .inl ⟨_, _, .drawing hd _ _ _ (.inl rfl), fun hv => absurd hv (Bool.eq_false_iff.1 hi), rfl⟩
  · exact .inl ⟨_, _, .drawing hd _ _ _ (.inl rfl), fun hv => absurd hv (Bool.eq_false_iff.1 hi), rfl⟩
  · exact .inr (.inr ⟨hd, hi, .drawing hd _ _ _ (.inl rfl), rfl, rfl⟩)
  · exact .inr (.inr ⟨hd, hi, .refl, rfl, rfl⟩)
  · exact .inr (.inr ⟨hd, hi, .drawing hd _ _ _ (.inr ⟨c, he⟩), rfl, rfl⟩)
  · exact .inr (.inl ⟨_, w, .drawing hd _ _ _ (.inr ⟨c, he⟩), hw, rfl⟩)
  · exact .inl ⟨_, _, .drawing hd _ _ _ (.inr ⟨c, he⟩), fun hv => absurd hv (Bool.eq_false_iff.1 hi), rfl⟩

/-- Settles O52: no way of ending writes another register (`exec_ends`). -/
theorem commandFrame : Obligations.CommandFrame := by
  intro i s t h
  rcases exec_ends h with ⟨_, c, ⟨v, r, n, a, q, l, rfl, hdraws, hanswer, hverdict⟩, -, rfl⟩ |
    ⟨_, _, ⟨v, r, n, a, q, l, rfl, hdraws, hanswer, hverdict⟩, ⟨sc, pt, rfl, hsc, hpt, -⟩, rfl⟩ |
    ⟨-, -, ⟨v, r, n, a, q, l, rfl, hdraws, hanswer, hverdict⟩, -, -⟩
  · exact ⟨fun _ _ => rfl, fun _ _ => rfl, rfl, rfl, rfl, rfl, rfl, rfl, rfl, rfl, rfl, rfl, rfl, rfl,
      hdraws, hanswer, hverdict⟩
  · exact ⟨hsc, hpt, rfl, rfl, rfl, rfl, rfl, rfl, rfl, rfl, rfl, rfl, rfl, rfl,
      hdraws, hanswer, hverdict⟩
  · exact ⟨fun _ _ => rfl, fun _ _ => rfl, rfl, rfl, rfl, rfl, rfl, rfl, rfl, rfl, rfl, rfl, rfl, rfl,
      hdraws, hanswer, hverdict⟩

/-- Settles O53: only the first way of ending sets `ERR`. -/
theorem faultIsPrecise : Obligations.FaultIsPrecise := by
  intro i s t h herr hfault
  rcases exec_ends h with ⟨_, c, ⟨v, r, n, a, q, l, rfl, hdraws, -, -⟩, hcleared, rfl⟩ |
    ⟨_, _, ⟨v, r, n, a, q, l, rfl, -⟩, ⟨sc, pt, rfl, -⟩, rfl⟩ | ⟨-, -, -, hstatus, -⟩
  · exact ⟨fun _ => rfl, fun _ => rfl, rfl, rfl, rfl, rfl, rfl, ⟨c, rfl⟩, rfl, rfl, rfl, rfl, rfl,
      fun hd => (hdraws hd).1, hcleared⟩
  · exact nomatch herr.symm.trans hfault
  · rw [hstatus] at hfault
    exact nomatch herr.symm.trans hfault

/-- Settles O54: the two ways of ending that leave `ERR`. -/
theorem commitKeepsTheFaultRegisters : Obligations.CommitKeepsTheFaultRegisters := by
  intro i s t h _ hclear
  rcases exec_ends h with ⟨_, c, -, -, rfl⟩ |
    ⟨_, _, ⟨v, r, n, a, q, l, rfl, -⟩, ⟨sc, pt, rfl, -⟩, rfl⟩ |
    ⟨hd, -, ⟨v, r, n, a, q, l, rfl, -⟩, -, -⟩
  · cases hclear
  · exact ⟨rfl, rfl, fun _ => .inl ⟨rfl, rfl, rfl, rfl⟩⟩
  · exact ⟨rfl, rfl, fun hbusy => .inr ⟨hbusy, rfl, hd, fun _ => rfl, fun _ => rfl⟩⟩

/-! ### The verdict (R27) -/

/-- The two verdict bits hold in `t` what they hold in `s`. -/
def State.SameVerdict (s t : State) : Prop := t.status.v = s.status.v ∧ t.status.rnge = s.status.rnge

theorem hostWrite_sameVerdict (r : RegNum) (v : Nat) (s : State) : s.SameVerdict (hostWrite r v s) := by
  rcases hostWrite_cases r v s with ⟨-, h⟩ | ⟨-, h⟩ | h | ⟨-, -, -, h⟩ | ⟨-, reg, -, -, -, -, -, h⟩ <;> rw [h]
  · exact ⟨rfl, rfl⟩
  · exact ⟨rfl, rfl⟩
  · exact ⟨rfl, rfl⟩
  · exact ⟨rfl, rfl⟩
  · cases reg <;> exact ⟨rfl, rfl⟩

theorem sequencer_verdict {s t : State} (h : sequencer s = .next t) :
    s.SameVerdict t ∨
      ∃ sr ss sz pq, s.status.busy = true ∧ decode s.cmd = .ok (.dsavfy sr ss sz pq) := by
  rcases sequencer_cases h with ⟨-, rfl⟩ | ⟨-, hbusy, ⟨e, -, rfl⟩ | ⟨i, hi, hexec⟩⟩
  · exact .inl ⟨rfl, rfl⟩
  · exact .inl ⟨rfl, rfl⟩
  · obtain ⟨-, -, -, -, -, -, -, -, -, -, -, -, -, -, -, -, hverdict⟩ := commandFrame i s t hexec
    cases i with
    | dsavfy sr ss sz pq => exact .inr ⟨sr, ss, sz, pq, hbusy, hi⟩
    | _ => exact .inl (hverdict rfl)

theorem step_verdict {s t : State} (h : step s = .next t) :
    s.SameVerdict t ∨
      (∃ sr ss sz pq, s.status.busy = true ∧ decode s.cmd = .ok (.dsavfy sr ss sz pq)) ∨
      t.rstN = false := by
  rcases step_cases h with ⟨-, hseq⟩ | ⟨i, rest, -, ⟨-, hseq⟩ | ⟨r, -, rfl⟩ | ⟨r, v, -, rfl⟩ | ⟨c, -, rfl⟩ |
    ⟨-, rfl⟩ | ⟨-, rfl⟩⟩
  · exact (sequencer_verdict hseq).imp_right .inl
  · exact (sequencer_verdict (s := { s with inputs := rest }) hseq).imp_right .inl
  · refine .inl ?_
    unfold portRead
    split
    · exact ⟨rfl, rfl⟩
    · exact ⟨rfl, rfl⟩
  · refine .inl ?_
    unfold portWrite
    split
    · exact hostWrite_sameVerdict r v { s with inputs := rest }
    · exact ⟨rfl, rfl⟩
  · exact .inl ⟨rfl, rfl⟩
  · exact .inl ⟨rfl, rfl⟩
  · exact .inr (.inr rfl)

/-- Settles O56: `step_verdict`. -/
theorem verdictChangesOnlyByDsavfy : Obligations.VerdictChangesOnlyByDsavfy := by
  intro s t h hchange
  refine (step_verdict h).resolve_left fun ⟨hv, hrnge⟩ => ?_
  exact hchange.elim (· hv) (· hrnge)

/-! ### The interrupt line (R190) -/

/-- A running command that ends sets `DONE`. -/
theorem exec_done_of_idle {i : Instr} {s t : State} (h : exec i s = .next t)
    (hbusy : s.status.busy = true) (hidle : t.status.busy = false) : t.status.done = true := by
  rcases exec_ends h with ⟨_, c, -, -, rfl⟩ | ⟨_, _, -, -, rfl⟩ | ⟨-, -, -, hstatus, -⟩
  · rfl
  · rfl
  · rw [hstatus] at hidle
    exact nomatch hbusy.symm.trans hidle

theorem exec_ctrl {i : Instr} {s t : State} (h : exec i s = .next t) : t.ctrl = s.ctrl := by
  obtain ⟨-, -, -, -, -, -, -, -, hctrl, -⟩ := commandFrame i s t h
  exact hctrl

/-- Settles O58: the line is a function of `STATUS` and `CTRL`; a command that ends sets `DONE`
(`exec_done_of_idle`) and keeps `CTRL` (`exec_ctrl`). -/
theorem interruptFollowsStatus : Obligations.InterruptFollowsStatus := by
  refine ⟨fun _ => rfl, rfl, fun _ _ => rfl, fun s v hidle herr => ?_, fun i s t h hbusy hidle => ?_⟩
  · rw [hostWrite_cmd_accepted hidle herr]
    simp [State.irq, herr]
  · have hdone := exec_done_of_idle h hbusy hidle
    have hctrl := exec_ctrl h
    exact ⟨fun hdie => by simp [State.irq, hdone, hctrl, hdie],
      fun heie herr => by simp [State.irq, herr, hctrl, heie]⟩

end Sys2Proof.Machine
end

section
/-! Proofs/Termination: a draw that is never answered never ends its command, and a capped command with answers
on offer ends: each turn of its loop is one of at most `RETRY_LIMIT` attempts (spec/60_exceptions.md R183, R201). -/

namespace Sys2Proof.Machine

theorem core_run_succ (M : Host.Core) {s t : M.State} (h : M.step s = .next t) (k : Nat) :
    M.run (k + 1) s = M.run k t := by
  rw [Host.Core.run, h]

theorem run_succ {s t : State} (h : step s = .next t) (k : Nat) :
    Host.Core.run Sys2Proof.core (k + 1) s = Host.Core.run Sys2Proof.core k t :=
  core_run_succ Sys2Proof.core h k

/-- A state that steps leave as it is, for any number of steps. -/
theorem run_of_step_self {s : State} (h : step s = .next s) (k : Nat) :
    Host.Core.run Sys2Proof.core k s = .next s := by
  induction k with
  | zero => rfl
  | succ k ih => rw [run_succ h, ih]

/-- R75: the command changes nothing while its request is not answered. -/
theorem exec_waits {i : Instr} {s : State} {bound : Nat} (hwf : i.wellFormed = true)
    (hdraws : i.draws = true) (hn : 2 ≤ s.curveN) (hr : s.rndReq = some bound)
    (he : s.entropy = []) : exec i s = .next s := by
  obtain ⟨-, hwait⟩ := unansweredDrawWaits s hn he
  obtain ⟨hkey, hsign⟩ := hwait bound hr
  cases i with
  | dsakg sd pq => exact hkey sd pq
  | dsasgn sr ss sz sd => exact hsign sr ss sz sd (by simpa [Instr.wellFormed] using hwf)
  | _ => cases hdraws

/-- Settles O59: the state does not change (`exec_waits`), so no number of steps changes it. -/
theorem unansweredCommandHangs : Obligations.UnansweredCommandHangs := by
  intro s i bound k hinv hbusy hrst hi hdraws hr hin he
  obtain ⟨hn, -⟩ := hinv.request bound hr
  obtain ⟨hwf, -⟩ := encode_of_decode_ok hi
  refine run_of_step_self ?_ k
  rw [step_of_no_inputs hin, sequencer_of_decode_ok hrst hbusy hi,
    exec_waits hwf hdraws hn hr he]

/-! ### A capped command (R201) -/

/-- A running command ends in its step, unless it draws: then it waits for an answer or has had one rejected. -/
theorem sequencer_running_cases {s t : State} (hrst : s.rstN = true) (hbusy : s.status.busy = true)
    (h : sequencer s = .next t) :
    (t.status.busy = false ∧ t.status.done = true) ∨ (s.mayDraw ∧ s.entropy = []) ∨
      (s.mayDraw ∧ ∃ c rest, s.entropy = c :: rest ∧ t = s.drawn rest) := by
  rcases sequencer_cases h with ⟨hidle, -⟩ | ⟨-, -, ⟨e, -, rfl⟩ | ⟨i, -, hexec⟩⟩
  · simp [hrst, hbusy] at hidle
  · exact .inl ⟨rfl, rfl⟩
  rcases exec_cases hexec with ⟨-, rfl⟩ | ⟨-, -, ⟨w, -, rfl⟩ | rfl⟩ | ⟨-, -, ⟨v, rfl⟩ | rfl⟩ |
    ⟨-, -, ⟨-, rfl⟩ | ⟨-, -, -, -, rfl⟩ | ⟨-, hd, he, -⟩ |
      ⟨-, hd, c, rest, he, rfl | ⟨w, -, rfl⟩ | rfl⟩⟩
  · exact .inl ⟨rfl, rfl⟩
  · exact .inl ⟨rfl, rfl⟩
  · exact .inl ⟨rfl, rfl⟩
  · exact .inl ⟨rfl, rfl⟩
  · exact .inl ⟨rfl, rfl⟩
  · exact .inl ⟨rfl, rfl⟩
  · exact .inl ⟨rfl, rfl⟩
  · exact .inr (.inl ⟨hd, he⟩)
  · exact .inr (.inr ⟨hd, c, rest, he, rfl⟩)
  · exact .inl ⟨rfl, rfl⟩
  · exact .inl ⟨rfl, rfl⟩

/-- `n` attempts are left under the cap and answered; each turn uses one of them up or ends the command. -/
theorem capped_run_ends (n : Nat) : ∀ s : State, s.Inv → s.status.busy = true → s.rstN = true →
    s.inputs = [] → s.retryLimit ≠ 0#16 → s.retryLimit.toNat < s.attemptNumber + n →
    n ≤ s.entropy.length →
    ∃ k t, k ≤ n + 1 ∧ Host.Core.run Sys2Proof.core k s = .next t ∧
      t.status.busy = false ∧ t.status.done = true := by
  induction n with
  | zero =>
    intro s hinv hbusy hrst hin hl hlast _
    obtain ⟨t, ht⟩ := step_next s
    refine ⟨1, t, le_rfl, run_succ ht 0, ?_⟩
    rw [step_of_no_inputs hin] at ht
    have hcap (hd : s.mayDraw) : False := by
      have := hinv.attemptNumber_le hbusy hd hl
      omega
    rcases sequencer_running_cases hrst hbusy ht with hend | ⟨hd, -⟩ | ⟨hd, -⟩
    · exact hend
    · exact (hcap hd).elim
    · exact (hcap hd).elim
  | succ n ih =>
    intro s hinv hbusy hrst hin hl hlast hlen
    obtain ⟨t, ht⟩ := step_next s
    have hseq := ht
    rw [step_of_no_inputs hin] at hseq
    rcases sequencer_running_cases hrst hbusy hseq with hend | ⟨-, he⟩ | ⟨hd, c, rest, he, rfl⟩
    · exact ⟨1, t, by omega, run_succ ht 0, hend⟩
    · rw [he] at hlen
      exact absurd hlen (by simp)
    · have hnext : (s.drawn rest).attemptNumber = s.attemptNumber + 1 := rfl
      have hrest : n ≤ rest.length := by
        rw [he, List.length_cons] at hlen
        omega
      obtain ⟨k, u, hk, hrun, hend⟩ := ih (s.drawn rest) (hinv.drawn hrst hbusy hd he) hbusy hrst hin
        hl (by rw [hnext]; exact lt_of_lt_of_eq hlast (by omega)) hrest
      exact ⟨k + 1, u, by omega, (run_succ ht k).trans hrun, hend⟩

theorem State.Inv.attemptNumber_pos {s : State} (hinv : s.Inv) : 1 ≤ s.attemptNumber := by
  unfold State.attemptNumber
  split
  · exact Nat.le_add_left ..
  · next hr =>
    obtain ⟨bound, hbound⟩ := Option.ne_none_iff_exists'.1 hr
    obtain ⟨-, -, hone⟩ := hinv.request bound hbound
    exact hone

/-- Settles O60: at most `RETRY_LIMIT` attempts are left when the command runs (`capped_run_ends`). -/
theorem cappedCommandTerminates : Obligations.CappedCommandTerminates := by
  intro s hinv hbusy hrst hin hl hlen
  have hpos := hinv.attemptNumber_pos
  exact capped_run_ends _ s hinv hbusy hrst hin hl (by omega) hlen

end Sys2Proof.Machine
end
